-- ==== Sys2Proof/Config.lean ====
section
/-! DEFINITION. The implementation parameters of the FASM core (00_scope.md R5). The spec leaves no result of an instruction
undefined, so there is no free value here. -/

namespace Sys2Proof.Config

/-- `XLEN`, the width of a register, a cell, an immediate and the pc, hence of `Word`; default 64 (R5; UNVERIFIED: decision D1,
log entry 1; unsafe). -/
abbrev xlen : Nat := 64

/-- `IW = 32 + XLEN`, the width of an instruction word, hence of `IWord` (R5; UNVERIFIED: decision D10, log entry 12). -/
abbrev iw : Nat := 32 + xlen

/-- The bytes of a word in a serialised image, 12 by default (30_encoding.md R60). -/
abbrev bytesPerWord : Nat := iw / 8

/-- `NREG`, the number of architectural registers (R5, 10_state.md R11). -/
abbrev nreg : Nat := 29

/-- `STACK_CELLS`, the number of cells of stack memory (R5, 20_memory.md R30). -/
abbrev stackCells : Nat := 8096

/-- `STACK_INIT`, what a cell holds at reset, hence what an unlisted cell reads as (R5, 10_state.md R28; UNVERIFIED: decision
D6, log entry 6; unsafe). -/
abbrev stackInit : BitVec xlen := 0#xlen

/-- The largest `N` of a program, `2^(XLEN-1) - 1` (R5; UNVERIFIED: decision D22, log entry 23; safe). -/
abbrev maxSlots : Nat := 2 ^ (xlen - 1) - 1

/-- `ENTRY_LABEL`, the label execution starts at (R5). -/
def entryLabel : List Char := "$main".toList

/-- `LABEL_SIGIL`, the first character of a label token (R5). -/
def labelSigil : Char := '$'

/-- `COMMENT_SIGIL`, the first character of a comment line's first token, used by the Loader only (R5). -/
def commentSigil : Char := '/'

/-- What reset does when the entry label is absent (R5, 60_exceptions.md R143). -/
inductive EntryMissingPolicy where
  /-- reset latches `EntryLabelMissing` -/
  | fault
  /-- the pc is 0 and the run starts, the reference behaviour -/
  | startAt0
  deriving DecidableEq, Repr

/-- `ENTRY_MISSING_POLICY`, default `fault` (R5; UNVERIFIED: decision D8, log entry 9; safe). -/
def entryMissingPolicy : EntryMissingPolicy := .fault

/-- `MAX_STEPS`, the optional ceiling on executed instructions: none (R5, 40_execution_loop.md R86; decision D19, log entry
19). `step` has no ceiling; only the fuelled run of Safety.lean reads it. -/
def maxSteps : Option Nat := none

end Sys2Proof.Config
end

