-- ==== Sys2Proof/Word.lean ====
section
/-! DEFINITION. The word types of the FASM core: the integer (XLEN bits), the instruction word (IW bits), the register
specifier, the byte of a serialised image, the token. -/

namespace Sys2Proof

/-- A signed integer of the machine: a register, a stack cell, an immediate or the pc, `XLEN` bits, two's complement
(10_state.md R13, R17, 20_memory.md R31; UNVERIFIED: the width is the spec's decision D1, log entry 1). -/
abbrev Word := BitVec Config.xlen

/-- An instruction word, `IW = 32 + XLEN` bits (30_encoding.md R55; UNVERIFIED: decision D10, log entry 12). -/
abbrev IWord := BitVec Config.iw

/-- A register specifier: "the 8-bit number that names a register in an instruction word" (00_scope.md section 7). -/
abbrev Specifier := BitVec 8

/-- A byte of a serialised program image (30_encoding.md R60). -/
abbrev Byte := BitVec 8

/-- A string token of an instruction (00_scope.md section 5), as its sequence of characters. -/
abbrev Token := List Char

/-- A token-level instruction: "an ordered sequence of string tokens" (30_encoding.md R50). -/
abbrev TokenInstr := List Token

end Sys2Proof
end

