-- ==== Sys2Proof/Syntax.lean ====
section
/-! DEFINITION. The instructions: the thirteen operations a word decodes to, the twelve mnemonics and the 29 register names of
the token level, and the label table. -/

namespace Sys2Proof

/-- The operations of the core, one per row of spec/opcode_table.json (30_encoding.md R69, R72). Register operands are
specifiers, since "the decoder of words sees only numbers" (R68). -/
inductive Instr where
  /-- the default row: label slot, unknown opcode, reserved `op` value (45_nop.md R130, R131) -/
  | nop
  /-- `li dst imm` (41_arithmetic.md R91) -/
  | li (dst : Specifier) (imm : Word)
  /-- `add dst src1 src2` (R92) -/
  | add (dst src1 src2 : Specifier)
  /-- `addi dst src imm` (R93) -/
  | addi (dst src : Specifier) (imm : Word)
  /-- `b label` (42_branch.md R104) -/
  | b (target : Word)
  /-- `beq r1 r2 label` (R105) -/
  | beq (r1 r2 : Specifier) (target : Word)
  /-- `bgt r1 r2 label` (R106) -/
  | bgt (r1 r2 : Specifier) (target : Word)
  /-- `ble r1 r2 label` (R107) -/
  | ble (r1 r2 : Specifier) (target : Word)
  /-- `jal label` (R108) -/
  | jal (target : Word)
  /-- `ret` (R109) -/
  | ret
  /-- `sw src addrReg` (43_memory_ops.md R116) -/
  | sw (src addrReg : Specifier)
  /-- `lw dst addrReg` (R117) -/
  | lw (dst addrReg : Specifier)
  /-- `ecall code` (44_syscall.md R121) -/
  | ecall (code : Word)
  deriving DecidableEq, Repr

/-- The 29 register names, in the order the source lists them (10_state.md R11). -/
inductive RegName where
  | zero | ra | sp
  | t0 | t1 | t2 | t3 | t4 | t5 | t6
  | a0 | a1 | a2 | a3 | a4 | a5 | a6
  | s0 | s1 | s2 | s3 | s4 | s5 | s6 | s7 | s8 | s9 | s10 | s11
  deriving DecidableEq, Repr

/-- The twelve mnemonics a token 0 can name (30_encoding.md R66). -/
inductive Mnemonic where
  | li | add | addi | b | beq | bgt | ble | jal | ret | sw | lw | ecall
  deriving DecidableEq, Repr

/-- The label table: label string to slot index (20_memory.md R40). Newest binding first, no string twice (DESIGN CHOICE, log
entry 22; safe). -/
abbrev LabelTable := List (Token × Nat)

end Sys2Proof
end

