-- ==== Sys2Proof/Decode.lean ====
section
/-! DEFINITION. The decoder and the encoder of instruction words (30_encoding.md R55 to R60, R69 to R72). The word layout, the
`op` numbers and the byte order are the spec's own (UNVERIFIED: decisions D10, D11, D16, log entry 12; no program observes
them). -/

namespace Sys2Proof

/-! ### The fields of a word (R56) -/

/-- `op`, bits 7:0. -/
def fieldOp (w : IWord) : BitVec 8 := w.extractLsb' 0 8

/-- `p1`, bits 15:8, the specifier of operand token 1. -/
def fieldP1 (w : IWord) : Specifier := w.extractLsb' 8 8

/-- `p2`, bits 23:16, the specifier of operand token 2. -/
def fieldP2 (w : IWord) : Specifier := w.extractLsb' 16 8

/-- `p3`, bits 31:24, the specifier of operand token 3. -/
def fieldP3 (w : IWord) : Specifier := w.extractLsb' 24 8

/-- `imm`, bits 95:32, the full two's complement value, neither split nor scaled (R58). -/
def fieldImm (w : IWord) : Word := w.extractLsb' 32 Config.xlen

/-- The word of the given fields: `W(op, p1, p2, p3, imm)` of R61. -/
def makeWord (op : BitVec 8) (p1 p2 p3 : Specifier) (imm : Word) : IWord := imm ++ p3 ++ p2 ++ p1 ++ op

/-! ### Decoding -/

/-- The word decoder `Decode` (R72): total, only `op` selects, unused fields are ignored (R59), every other `op` value is the
no-op (45_nop.md R131). -/
def decodeWord (w : IWord) : Instr :=
  match (fieldOp w).toNat with
  | 0x01 => .li (fieldP1 w) (fieldImm w)
  | 0x02 => .add (fieldP1 w) (fieldP2 w) (fieldP3 w)
  | 0x03 => .addi (fieldP1 w) (fieldP2 w) (fieldImm w)
  | 0x04 => .b (fieldImm w)
  | 0x05 => .beq (fieldP1 w) (fieldP2 w) (fieldImm w)
  | 0x06 => .bgt (fieldP1 w) (fieldP2 w) (fieldImm w)
  | 0x07 => .ble (fieldP1 w) (fieldP2 w) (fieldImm w)
  | 0x08 => .jal (fieldImm w)
  | 0x09 => .ret
  | 0x0A => .sw (fieldP1 w) (fieldP2 w)
  | 0x0B => .lw (fieldP1 w) (fieldP2 w)
  | 0x0C => .ecall (fieldImm w)
  | _ => .nop

/-- Which fields a word's format uses beside `op`. -/
structure FieldUse where
  p1 : Bool
  p2 : Bool
  p3 : Bool
  imm : Bool
  deriving DecidableEq, Repr

/-- The format table R57, by `op` value; `nop` and the reserved values have format `W-0` (R69). -/
def fieldUse (op : BitVec 8) : FieldUse :=
  match op.toNat with
  | 0x01 => ⟨true, false, false, true⟩
  | 0x02 => ⟨true, true, true, false⟩
  | 0x03 => ⟨true, true, false, true⟩
  | 0x04 => ⟨false, false, false, true⟩
  | 0x05 => ⟨true, true, false, true⟩
  | 0x06 => ⟨true, true, false, true⟩
  | 0x07 => ⟨true, true, false, true⟩
  | 0x08 => ⟨false, false, false, true⟩
  | 0x09 => ⟨false, false, false, false⟩
  | 0x0A => ⟨true, true, false, false⟩
  | 0x0B => ⟨true, true, false, false⟩
  | 0x0C => ⟨false, false, false, true⟩
  | _ => ⟨false, false, false, false⟩

/-! ### Serialisation (R60) -/

/-- The bytes of a word, least significant first. -/
def wordBytes (w : IWord) : List Byte := (List.range Config.bytesPerWord).map fun k => w.extractLsb' (8 * k) 8

/-- The word whose bytes, least significant first, are the list's. -/
def wordOfBytes : List Byte → IWord
  | [] => 0#Config.iw
  | b :: bs => wordOfBytes bs <<< 8 ||| b.setWidth Config.iw

/-- Why a byte list holds no instruction. Every full word decodes (R70), so a short list is the only reason. -/
inductive DecodeError where
  /-- fewer than the bytes of a word are left -/
  | truncatedWord (bytesLeft : Nat)
  deriving DecidableEq, Repr

/-- Take one word off a serialised image, with the bytes after it. -/
def takeWord (bytes : List Byte) : Except DecodeError (IWord × List Byte) :=
  if bytes.length < Config.bytesPerWord then .error (.truncatedWord bytes.length)
  else .ok (wordOfBytes (bytes.take Config.bytesPerWord), bytes.drop Config.bytesPerWord)

/-- Decode the instruction at the head of a serialised image: total on any bytes. -/
def decode (bytes : List Byte) : Except DecodeError (Instr × List Byte) :=
  match takeWord bytes with
  | .ok (w, rest) => .ok (decodeWord w, rest)
  | .error e => .error e

/-- The byte image of a program: one word's bytes after the other's (R60). -/
def imageBytes : List IWord → List Byte
  | [] => []
  | w :: ws => wordBytes w ++ imageBytes ws

/-- Read a whole byte image back as the words of the program store, `fuel` words at most. -/
def imageWords : Nat → List Byte → Except DecodeError (List IWord)
  | _, [] => .ok []
  | 0, bytes => .error (.truncatedWord bytes.length)
  | fuel + 1, bytes =>
    match takeWord bytes with
    | .error e => .error e
    | .ok (w, rest) =>
      match imageWords fuel rest with
      | .error e => .error e
      | .ok ws => .ok (w :: ws)

/-! ### Encoding -/

/-- The `op` byte of an instruction (R69). -/
def opByte : Instr → BitVec 8
  | .nop => 0x00#8
  | .li _ _ => 0x01#8
  | .add _ _ _ => 0x02#8
  | .addi _ _ _ => 0x03#8
  | .b _ => 0x04#8
  | .beq _ _ _ => 0x05#8
  | .bgt _ _ _ => 0x06#8
  | .ble _ _ _ => 0x07#8
  | .jal _ => 0x08#8
  | .ret => 0x09#8
  | .sw _ _ => 0x0A#8
  | .lw _ _ => 0x0B#8
  | .ecall _ => 0x0C#8

/-- The word of an instruction, by the format table R57; fields a format does not use are 0 (R59). -/
def encode (i : Instr) : IWord :=
  match i with
  | .nop => makeWord (opByte i) 0 0 0 0
  | .li dst imm => makeWord (opByte i) dst 0 0 imm
  | .add dst src1 src2 => makeWord (opByte i) dst src1 src2 0
  | .addi dst src imm => makeWord (opByte i) dst src 0 imm
  | .b target => makeWord (opByte i) 0 0 0 target
  | .beq r1 r2 target => makeWord (opByte i) r1 r2 0 target
  | .bgt r1 r2 target => makeWord (opByte i) r1 r2 0 target
  | .ble r1 r2 target => makeWord (opByte i) r1 r2 0 target
  | .jal target => makeWord (opByte i) 0 0 0 target
  | .ret => makeWord (opByte i) 0 0 0 0
  | .sw src addrReg => makeWord (opByte i) src addrReg 0 0
  | .lw dst addrReg => makeWord (opByte i) dst addrReg 0 0
  | .ecall code => makeWord (opByte i) 0 0 0 code

/-- The bytes of an instruction in an image. -/
def encodeBytes (i : Instr) : List Byte := wordBytes (encode i)

/-! ### The opcode table's numbering -/

/-- The word whose bits are `w`, numbered as spec/opcode_table.json numbers them, with every bit from `nbits` up 0. A word is
one unit, so the table's numbering is the word's own. -/
def tableWord (nbits w : Nat) : IWord := BitVec.ofNat Config.iw (w % 2 ^ nbits)

/-- What the decoder reads from a row's word, laid out as the bytes of R60. -/
def decodeTableWord (nbits w : Nat) : Option Instr :=
  if nbits ≤ Config.iw then
    match decode (wordBytes (tableWord nbits w)) with
    | .ok (i, _) => some i
    | .error _ => none
  else none

end Sys2Proof
end

