-- ==== Sys2Proof/Machine/State.lean ====
section
/-! DEFINITION. The state of the FASM core as plain data, the reasons a step can stop, and the state right after reset. -/

namespace Sys2Proof.Machine

/-- Whether a faulting access was a load or a store (60_exceptions.md R141). -/
inductive Access where
  | load
  | store
  deriving DecidableEq, Repr

/-- The causes the fault latch can hold, each with the information recorded (60_exceptions.md R141). -/
inductive FaultCause where
  /-- code 1, latched by reset when the entry label is not bound -/
  | entryLabelMissing
  /-- code 2, raised by `sw` and `lw`: the address, the pc of the instruction, load or store -/
  | stackOutOfBounds (addr pc : Word) (access : Access)
  deriving DecidableEq, Repr

/-- Why `step` answers no next state. None of them is an instruction left out: in each case the spec enables no step
(40_execution_loop.md R82, R87). -/
inductive Fault where
  /-- Raised by `step` alone, when the fault latch is set: the run was aborted (60_exceptions.md R144). Safe. -/
  | aborted (cause : FaultCause)
  /-- Raised by `step` alone, when the pc is outside the program: the run has ended NORMALLY (40_execution_loop.md R84). Safe:
  the state stays as it is (log entry 18). -/
  | halted
  /-- Raised by `ecall 5` when the input stream is empty: the core waits with no state change (44_syscall.md R123). Safe: the
  host may append to the stream and step again (log entry 17). -/
  | blockedOnInput
  deriving DecidableEq, Repr

/-- Why an instruction is not executed. -/
inductive Refusal where
  /-- Raised by an arm of `exec` whose instruction has no meaning yet; no arm does. Safe. -/
  | notModelled (mnemonic : String)
  deriving DecidableEq, Repr

/-- Stack memory as the list of (cell index, content) pairs whose content is not `Config.stackInit`, by rising index
(20_memory.md R30 to R32; the unit is the 64-bit cell, "there is no byte address anywhere in the machine", 10_state.md R24;
DEDUCED, log entry 7; safe). -/
abbrev Memory := List (Nat × Word)

/-- The state of the core (10_state.md R10), with the parameters of a run (R27), which no step changes (log entry 20). -/
structure State where
  /-- the register file, indexed by specifier 0 to 28 (10_state.md R11, R12) -/
  regs : Vector Word 29
  /-- the program counter, a signed slot index (R17) -/
  pc : Word
  /-- the stack memory (20_memory.md R30) -/
  stack : Memory
  /-- the fault latch (R25) -/
  latch : Option FaultCause
  /-- the output stream, oldest first (R26) -/
  output : List Word
  /-- what the input stream still holds, next value first (R26) -/
  input : List Word
  /-- the program store, one word a slot (R27, 20_memory.md R39) -/
  program : List IWord
  /-- the label table (R27, 20_memory.md R40) -/
  labels : LabelTable
  deriving DecidableEq, Repr

/-- The machine right after reset with nothing loaded: registers 0, no cell listed, streams empty (70_reset_and_hazards.md
R160). The empty program has no `$main`, so reset latches `EntryLabelMissing` and the pc is 0 (R161; log entries 9, 10). -/
def State.reset : State where
  regs := Vector.replicate 29 0#Config.xlen
  pc := 0#Config.xlen
  stack := []
  latch := some .entryLabelMissing
  output := []
  input := []
  program := []
  labels := []

/-- What an instruction's meaning and a step answer. -/
abbrev Result := Host.Outcome State Fault Refusal

end Sys2Proof.Machine
end

