-- ==== Sys2Proof/Machine/Ops.lean ====
section
/-! DEFINITION. The named operations over the state: stack memory, the pc, the streams, fault entry, fetch, and the placing of
a word where the next step fetches. -/

namespace Sys2Proof.Machine

/-! ### Stack memory as data -/

/-- The content of one cell: an unlisted cell holds `Config.stackInit` (10_state.md R28). -/
def Memory.read : Memory → Nat → Word
  | [], _ => Config.stackInit
  | (b, v) :: rest, a => if a = b then v else Memory.read rest a

/-- The list without a cell. -/
def Memory.erase (m : Memory) (a : Nat) : Memory := m.filter fun c => c.1 != a

/-- The list with a cell put before the first higher index. -/
def Memory.insert : Memory → Nat → Word → Memory
  | [], a, v => [(a, v)]
  | (b, u) :: rest, a, v => if a < b then (a, v) :: (b, u) :: rest else (b, u) :: Memory.insert rest a v

/-- Write one cell, keeping the canonical form: a cell that gets the unlisted content is dropped from the list. -/
def Memory.write (m : Memory) (a : Nat) (v : Word) : Memory :=
  if v = Config.stackInit then Memory.erase m a else Memory.insert (Memory.erase m a) a v

/-- The canonical form: indices rise strictly, every listed cell exists (20_memory.md R38) and differs from what an unlisted
one reads as. -/
abbrev Memory.wf (m : Memory) : Prop :=
  m.Pairwise (fun c d => c.1 < d.1) ∧ ∀ c ∈ m, c.1 < Config.stackCells ∧ c.2 ≠ Config.stackInit

/-! ### Stack access (20_memory.md R33, R34) -/

/-- `0 <= addr < STACK_CELLS` on the signed value (R33). -/
def inBounds (addr : Word) : Bool := decide (0 ≤ addr.toInt) && decide (addr.toInt < Config.stackCells)

/-- `MemRead(addr, 1)`: the cell's content, or the fault `StackOutOfBounds(addr)` (R34; UNVERIFIED: decision D7, log entry 8). -/
def State.memRead (s : State) (addr : Word) : Except FaultCause Word :=
  if inBounds addr then .ok (s.stack.read addr.toNat) else .error (.stackOutOfBounds addr s.pc .load)

/-- `MemWrite(addr, 1, v)`: the state with the cell written, or the fault `StackOutOfBounds(addr)` (R34). -/
def State.memWrite (s : State) (addr v : Word) : Except FaultCause State :=
  if inBounds addr then .ok { s with stack := s.stack.write addr.toNat v }
  else .error (.stackOutOfBounds addr s.pc .store)

/-! ### The pc (10_state.md R19, 40_execution_loop.md R82) -/

/-- `pc <- target`. -/
def State.setPc (s : State) (target : Word) : State := { s with pc := target }

/-- The default next pc, `pc + 1` modulo 2^64 (R82, 10_state.md R20). -/
def State.advance (s : State) : State := { s with pc := s.pc + 1#Config.xlen }

/-! ### The console streams (10_state.md R26) -/

/-- `Out(v)`: append to the output stream (44_syscall.md R122). -/
def State.emit (s : State) (v : Word) : State := { s with output := s.output ++ [v] }

/-- `In()`: the head of the input stream and the state without it; none while the stream is empty (44_syscall.md R123). -/
def State.takeInput (s : State) : Option (Word × State) :=
  match s.input with
  | [] => none
  | v :: rest => some (v, { s with input := rest })

/-! ### Fault entry (60_exceptions.md R144) -/

/-- Taking a fault: the latch takes the cause and nothing else changes; there is no handler and no return (R140, R146;
UNVERIFIED: decision D20, log entry 8). -/
def State.takeFault (s : State) (cause : FaultCause) : State := { s with latch := some cause }

/-- The code of a cause (60_exceptions.md R141; UNVERIFIED: decision D20, log entry 8). -/
def FaultCause.code : FaultCause → Nat
  | .entryLabelMissing => 1
  | .stackOutOfBounds _ _ _ => 2

/-- The code the latch shows, 0 for `none` (60_exceptions.md R141). -/
def State.faultCode (s : State) : Nat :=
  match s.latch with
  | none => 0
  | some cause => cause.code

/-- Complete an instruction that may fault: step to `pc + 1` with its effect, or take the fault in the state before it. -/
def State.complete (s : State) (effect : Except FaultCause State) : Result :=
  match effect with
  | .ok t => .next t.advance
  | .error cause => .next (s.takeFault cause)

/-! ### Fetch (40_execution_loop.md R81) -/

/-- The pc is within `[0, N)` (R82, R84). -/
def State.inProgram (s : State) : Bool := decide (0 ≤ s.pc.toInt) && decide (s.pc.toInt < s.program.length)

/-- The word in the slot the pc names; none when the pc is outside the program (R81, R84). -/
def State.fetch (s : State) : Option IWord := if s.inProgram then s.program[s.pc.toNat]? else none

/-- The state whose next step fetches `w`: the latch is clear, and `w` is in the slot the pc names, or is the only slot when
the pc names none (log entry 10: it stands for the Loader's hand-over). -/
def State.placeWord (s : State) (w : IWord) : State :=
  if s.inProgram then { s with latch := none, program := s.program.set s.pc.toNat w }
  else { s with latch := none, program := [w], pc := 0#Config.xlen }

end Sys2Proof.Machine
end

