-- ==== Sys2Proof/Machine/Operands.lean ====
section
/-! DEFINITION. Register operands: the specifiers, reading `x[i]` and writing `x[i] <- v` (00_scope.md section 6, 10_state.md
R12, R15). The other operand, the immediate, is the `imm` field itself (30_encoding.md R58). -/

namespace Sys2Proof

/-- The specifier number of a register (10_state.md R12; UNVERIFIED: decision D2, log entry 2; safe). -/
def RegName.number : RegName → Nat
  | .zero => 0
  | .ra => 1
  | .sp => 2
  | .t0 => 3
  | .t1 => 4
  | .t2 => 5
  | .t3 => 6
  | .t4 => 7
  | .t5 => 8
  | .t6 => 9
  | .a0 => 10
  | .a1 => 11
  | .a2 => 12
  | .a3 => 13
  | .a4 => 14
  | .a5 => 15
  | .a6 => 16
  | .s0 => 17
  | .s1 => 18
  | .s2 => 19
  | .s3 => 20
  | .s4 => 21
  | .s5 => 22
  | .s6 => 23
  | .s7 => 24
  | .s8 => 25
  | .s9 => 26
  | .s10 => 27
  | .s11 => 28

/-- The specifier of a register (10_state.md R12). -/
def RegName.specifier (r : RegName) : Specifier := BitVec.ofNat 8 r.number

/-- The specifier the resolver gives every absent register token (30_encoding.md R62). -/
def absentSpecifier : Specifier := 255#8

namespace Machine

/-- `ra`, the register `jal` and `ret` use implicitly (10_state.md R16). -/
def regRa : Specifier := RegName.specifier .ra

/-- `a0`, the register `ecall` uses implicitly (10_state.md R16). -/
def regA0 : Specifier := RegName.specifier .a0

/-- `x[i]`: the register numbered `i`, or 0 for the absent register (10_state.md R15). No register is hardwired, `zero`
included (R14; UNVERIFIED: decision D4, log entry 4; unsafe). -/
def State.reg (s : State) (i : Specifier) : Word := if h : i.toNat < 29 then s.regs[i.toNat] else 0#Config.xlen

/-- `x[i] <- v`: a write to the absent register is discarded (10_state.md R15; UNVERIFIED: decision D3, log entry 3; unsafe). -/
def State.setReg (s : State) (i : Specifier) (v : Word) : State :=
  if h : i.toNat < 29 then { s with regs := s.regs.set i.toNat v } else s

end Machine

end Sys2Proof
end

