-- ==== Sys2Proof/Machine/Arithmetic.lean ====
section
/-! DEFINITION. The arithmetic family, the whole ALU: `li`, `add`, `addi` (41_arithmetic.md R90). -/

namespace Sys2Proof.Machine

/-- The sum modulo 2^64; overflow sets nothing and raises nothing (41_arithmetic.md R94; UNVERIFIED: decision D1, log entry 1). -/
def addWord (a b : Word) : Word := a + b

/-- `li dst imm` (41_arithmetic.md R91). -/
def execLi (dst : Specifier) (imm : Word) (s : State) : Result := .next (s.setReg dst imm).advance

/-- `add dst src1 src2` (41_arithmetic.md R92). -/
def execAdd (dst src1 src2 : Specifier) (s : State) : Result :=
  .next (s.setReg dst (addWord (s.reg src1) (s.reg src2))).advance

/-- `addi dst src imm` (41_arithmetic.md R93). -/
def execAddi (dst src : Specifier) (imm : Word) (s : State) : Result :=
  .next (s.setReg dst (addWord (s.reg src) imm)).advance

end Sys2Proof.Machine
end

