-- ==== Sys2Proof/Machine/Flags.lean ====
section
/-! DEFINITION. The machine has no flags, condition codes or predicate registers (10_state.md R21), so there is no flag
computation. What stands here instead is what the conditional branches test: the three comparisons of two register values
(42_branch.md R102), which leave no record. -/

namespace Sys2Proof.Machine

/-- `r1 == r2` (42_branch.md R105). -/
def testEq (a b : Word) : Bool := decide (a = b)

/-- `r1 > r2` on the signed values (42_branch.md R106). -/
def testGt (a b : Word) : Bool := decide (b.toInt < a.toInt)

/-- `r1 <= r2` on the signed values (42_branch.md R107). -/
def testLe (a b : Word) : Bool := decide (a.toInt ≤ b.toInt)

end Sys2Proof.Machine
end

