-- ==== Sys2Proof/Machine/Branch.lean ====
section
/-! DEFINITION. The branch family, the branch resolver: `b`, `beq`, `bgt`, `ble`, `jal`, `ret` (42_branch.md R100 to R103).
Targets are absolute slot indices (R101). -/

namespace Sys2Proof.Machine

/-- Go to the target if the predicate holds, else to `pc + 1` (10_state.md R19). -/
def State.branchIf (s : State) (taken : Bool) (target : Word) : State := if taken then s.setPc target else s.advance

/-- `b label` (42_branch.md R104). -/
def execB (target : Word) (s : State) : Result := .next (s.setPc target)

/-- `beq r1 r2 label` (42_branch.md R105). -/
def execBeq (r1 r2 : Specifier) (target : Word) (s : State) : Result :=
  .next (s.branchIf (testEq (s.reg r1) (s.reg r2)) target)

/-- `bgt r1 r2 label` (42_branch.md R106). -/
def execBgt (r1 r2 : Specifier) (target : Word) (s : State) : Result :=
  .next (s.branchIf (testGt (s.reg r1) (s.reg r2)) target)

/-- `ble r1 r2 label` (42_branch.md R107). -/
def execBle (r1 r2 : Specifier) (target : Word) (s : State) : Result :=
  .next (s.branchIf (testLe (s.reg r1) (s.reg r2)) target)

/-- `jal label`: `ra` takes the index of this `jal` itself (42_branch.md R108; UNVERIFIED: decision D9, log entry 11; unsafe). -/
def execJal (target : Word) (s : State) : Result := .next ((s.setReg regRa s.pc).setPc target)

/-- `ret`: to `x[ra] + 1` (42_branch.md R109, 90_conflicts.md C2; UNVERIFIED: decision D9, log entry 11; unsafe). -/
def execRet (s : State) : Result := .next (s.setPc (s.reg regRa + 1#Config.xlen))

end Sys2Proof.Machine
end

