-- ==== Sys2Proof/Machine/Default.lean ====
section
/-! DEFINITION. The default family: label slots, unknown opcodes and reserved `op` values (45_nop.md R130, R131). -/

namespace Sys2Proof.Machine

/-- The default row: no register, no cell, no stream changes (45_nop.md R130). -/
def execNop (s : State) : Result := .next s.advance

end Sys2Proof.Machine
end

