-- ==== Sys2Proof/Machine/Stack.lean ====
section
/-! DEFINITION. The memory family, the stack-memory interface: `sw`, `lw` (43_memory_ops.md R115). The address is the signed
value of the address register, a cell index (20_memory.md R32). -/

namespace Sys2Proof.Machine

/-- `sw src addrReg` (43_memory_ops.md R116). -/
def execSw (src addrReg : Specifier) (s : State) : Result := s.complete (s.memWrite (s.reg addrReg) (s.reg src))

/-- `lw dst addrReg` (43_memory_ops.md R117); an absent `dst` still checks the bounds (UNVERIFIED: decision D24, log entry 25;
safe). -/
def execLw (dst addrReg : Specifier) (s : State) : Result :=
  s.complete ((s.memRead (s.reg addrReg)).map fun v => s.setReg dst v)

end Sys2Proof.Machine
end

