-- ==== Sys2Proof/Machine/Syscall.lean ====
section
/-! DEFINITION. The syscall family: `ecall` (44_syscall.md R120). The code is part of the instruction. -/

namespace Sys2Proof.Machine

/-- Code 1, print integer: `Out(x[a0])` (44_syscall.md R122). -/
def printInteger (s : State) : Result := .next (s.emit (s.reg regA0)).advance

/-- Code 5, read integer: `x[a0] <- In()`; on an empty stream no step is enabled (44_syscall.md R123; UNVERIFIED: decision D18,
log entry 17). -/
def readInteger (s : State) : Result :=
  match s.takeInput with
  | none => .fault .blockedOnInput
  | some (v, t) => .next (t.setReg regA0 v).advance

/-- `ecall code`: 1 prints, 5 reads, any other code does nothing (44_syscall.md R121, R124). -/
def execEcall (code : Word) (s : State) : Result :=
  if code = 1#Config.xlen then printInteger s
  else if code = 5#Config.xlen then readInteger s
  else .next s.advance

end Sys2Proof.Machine
end

