-- ==== Sys2Proof/Machine/Dispatch.lean ====
section
/-! DEFINITION. The Instruction Dispatcher (00_scope.md R2): one arm per operation, exactly one applies (40_execution_loop.md
R82). It is the instruction's rule alone; whether a step is enabled is asked by step (log entry 21). -/

namespace Sys2Proof.Machine

def exec (i : Instr) (s : State) : Host.Outcome State Fault Refusal :=
  match i with
  | .nop => Sys2Proof.Machine.execNop s
  | .li dst imm => Sys2Proof.Machine.execLi dst imm s
  | .add dst src1 src2 => Sys2Proof.Machine.execAdd dst src1 src2 s
  | .addi dst src imm => Sys2Proof.Machine.execAddi dst src imm s
  | .b target => Sys2Proof.Machine.execB target s
  | .beq r1 r2 target => Sys2Proof.Machine.execBeq r1 r2 target s
  | .bgt r1 r2 target => Sys2Proof.Machine.execBgt r1 r2 target s
  | .ble r1 r2 target => Sys2Proof.Machine.execBle r1 r2 target s
  | .jal target => Sys2Proof.Machine.execJal target s
  | .ret => Sys2Proof.Machine.execRet s
  | .sw src addrReg => Sys2Proof.Machine.execSw src addrReg s
  | .lw dst addrReg => Sys2Proof.Machine.execLw dst addrReg s
  | .ecall code => Sys2Proof.Machine.execEcall code s

end Sys2Proof.Machine
end

