-- ==== Sys2Proof/Machine/Step.lean ====
section
/-! DEFINITION. One step of the Execution Loop (40_execution_loop.md R80 to R82), and where the host places an instruction. -/

namespace Sys2Proof.Machine

/-- Fetch, decode, execute (40_execution_loop.md R82). No step is enabled while a fault is latched (60_exceptions.md R144) nor
once the pc has left the program (R84); a blocked `ecall 5` is told apart by its own meaning. -/
def step (s : State) : Host.Outcome State Fault Refusal :=
  match s.latch with
  | some cause => .fault (.aborted cause)
  | none =>
    match s.fetch with
    | none => .fault .halted
    | some w => exec (decodeWord w) s

/-- `s` with a row's word of spec/opcode_table.json stored where `step` fetches next. -/
def State.withFetchWord (s : State) (nbits w : Nat) : State := s.placeWord (tableWord nbits w)

end Sys2Proof.Machine
end

