-- ==== Sys2Proof/Machine/Tokens.lean ====
section
/-! DEFINITION. What single tokens mean: register names, mnemonics, integer literals, syscall codes, label declarations and the
label table (30_encoding.md R51 to R53, R62 to R66). Matching is on whole tokens and case-sensitive (UNVERIFIED: decision D13,
log entry 13). -/

namespace Sys2Proof

/-! ### Register names (R62) -/

/-- The spelling of a register name (10_state.md R11). -/
def RegName.spelling : RegName → Token
  | .zero => "zero".toList
  | .ra => "ra".toList
  | .sp => "sp".toList
  | .t0 => "t0".toList
  | .t1 => "t1".toList
  | .t2 => "t2".toList
  | .t3 => "t3".toList
  | .t4 => "t4".toList
  | .t5 => "t5".toList
  | .t6 => "t6".toList
  | .a0 => "a0".toList
  | .a1 => "a1".toList
  | .a2 => "a2".toList
  | .a3 => "a3".toList
  | .a4 => "a4".toList
  | .a5 => "a5".toList
  | .a6 => "a6".toList
  | .s0 => "s0".toList
  | .s1 => "s1".toList
  | .s2 => "s2".toList
  | .s3 => "s3".toList
  | .s4 => "s4".toList
  | .s5 => "s5".toList
  | .s6 => "s6".toList
  | .s7 => "s7".toList
  | .s8 => "s8".toList
  | .s9 => "s9".toList
  | .s10 => "s10".toList
  | .s11 => "s11".toList

/-- The 29 registers in specifier order (10_state.md R11, R12). -/
def RegName.all : List RegName :=
  [.zero, .ra, .sp, .t0, .t1, .t2, .t3, .t4, .t5, .t6, .a0, .a1, .a2, .a3, .a4, .a5, .a6, .s0, .s1, .s2, .s3, .s4, .s5, .s6,
    .s7, .s8, .s9, .s10, .s11]

/-- The register a token names, if it is exactly one of the 29 names. -/
def RegName.ofToken? (tok : Token) : Option RegName := RegName.all.find? fun r => r.spelling == tok

/-- `Reg(tok)` (R62): the specifier, or 255 for an absent register. -/
def regOfToken (tok : Token) : Specifier :=
  match RegName.ofToken? tok with
  | some r => r.specifier
  | none => absentSpecifier

/-! ### Mnemonics (R66) -/

/-- The spelling of a mnemonic. -/
def Mnemonic.spelling : Mnemonic → Token
  | .li => "li".toList
  | .add => "add".toList
  | .addi => "addi".toList
  | .b => "b".toList
  | .beq => "beq".toList
  | .bgt => "bgt".toList
  | .ble => "ble".toList
  | .jal => "jal".toList
  | .ret => "ret".toList
  | .sw => "sw".toList
  | .lw => "lw".toList
  | .ecall => "ecall".toList

/-- The twelve mnemonics, in the order of the source's opcode table. -/
def Mnemonic.all : List Mnemonic := [.li, .add, .addi, .b, .beq, .bgt, .ble, .jal, .ret, .sw, .lw, .ecall]

/-- The mnemonic a token 0 names; none for a label, an unknown word, a wrong case. -/
def Mnemonic.ofToken? (tok : Token) : Option Mnemonic := Mnemonic.all.find? fun m => m.spelling == tok

/-- How many operand tokens a mnemonic needs (R54, R61). -/
def Mnemonic.operandCount : Mnemonic → Nat
  | .li => 2
  | .add => 3
  | .addi => 3
  | .b => 1
  | .beq => 3
  | .bgt => 3
  | .ble => 3
  | .jal => 1
  | .ret => 0
  | .sw => 2
  | .lw => 2
  | .ecall => 1

/-! ### Integer literals (R63; UNVERIFIED: decision D12, log entry 13) -/

/-- The value of a decimal digit. -/
def digitValue? (c : Char) : Option Nat := if '0'.toNat ≤ c.toNat ∧ c.toNat ≤ '9'.toNat then some (c.toNat - '0'.toNat) else none

/-- The value of digits appended to a number already read; none if a character is no digit. -/
def digitsFrom (acc : Nat) : List Char → Option Nat
  | [] => some acc
  | c :: cs =>
    match digitValue? c with
    | some d => digitsFrom (acc * 10 + d) cs
    | none => none

/-- One or more decimal digits. -/
def digits? : List Char → Option Nat
  | [] => none
  | c :: cs => digitsFrom 0 (c :: cs)

/-- "an optional single `+` or `-` followed by one or more decimal digits `0` to `9`, with nothing else in the token". -/
def literalValue? : Token → Option Int
  | [] => none
  | c :: cs =>
    if c = '-' then (digits? cs).map fun (n : Nat) => -(n : Int)
    else if c = '+' then (digits? cs).map fun (n : Nat) => (n : Int)
    else (digits? (c :: cs)).map fun (n : Nat) => (n : Int)

/-- `ParseInt(tok)`: the literal's value when it lies in the signed `XLEN`-bit range, 0 for every other token. -/
def parseInt (tok : Token) : Word :=
  match literalValue? tok with
  | some v => if -(2 ^ (Config.xlen - 1)) ≤ v ∧ v ≤ 2 ^ (Config.xlen - 1) - 1 then BitVec.ofInt Config.xlen v else 0#Config.xlen
  | none => 0#Config.xlen

/-! ### Syscall codes (R65; UNVERIFIED: decision D15, log entry 15) -/

/-- `Code(tok)`: 1 and 5 for exactly those one-character strings, 0 for every other token. -/
def codeOfToken (tok : Token) : Word :=
  if tok = "1".toList then 1#Config.xlen else if tok = "5".toList then 5#Config.xlen else 0#Config.xlen

/-! ### Labels (R52, R53, R64) -/

/-- A comment line: its token 0 begins with `/` (R51). -/
def isComment : TokenInstr → Bool
  | (c :: _) :: _ => c == Config.commentSigil
  | _ => false

/-- The label a slot declares: its token 0, if that begins with `$` (R53, 90_conflicts.md C3). -/
def declaredLabel? : TokenInstr → Option Token
  | (c :: cs) :: _ => if c = Config.labelSigil then some (c :: cs) else none
  | _ => none

/-- `LT[tok] <- i`, overwriting (R53). -/
def LabelTable.bind (lt : LabelTable) (tok : Token) (i : Nat) : LabelTable := (tok, i) :: lt.filter fun e => e.1 != tok

/-- The index bound to a string, if any. -/
def LabelTable.find (lt : LabelTable) (tok : Token) : Option Nat :=
  match lt with
  | [] => none
  | (k, i) :: rest => if k = tok then some i else LabelTable.find rest tok

/-- `Label(tok)`: the slot index, or 0 when the string is not a key, whatever it looks like (R64; decision D23, log entry 13). -/
def LabelTable.target (lt : LabelTable) (tok : Token) : Word :=
  match lt.find tok with
  | some i => BitVec.ofNat Config.xlen i
  | none => 0#Config.xlen

/-- The table after the slots from index `i` on, given the table before them (R53). -/
def labelsFrom (i : Nat) (lt : LabelTable) : List TokenInstr → LabelTable
  | [] => lt
  | t :: ts =>
    match declaredLabel? t with
    | some l => labelsFrom (i + 1) (lt.bind l i) ts
    | none => labelsFrom (i + 1) lt ts

/-- The label table of a program: every slot in order, the last declaration of a string wins (R53). -/
def buildLabels (slots : List TokenInstr) : LabelTable := labelsFrom 0 [] slots

end Sys2Proof
end

