-- ==== Sys2Proof/Machine/Console.lean ====
section
/-! DEFINITION. The host's side of the console and of the final snapshot, as far as the spec states it (44_syscall.md R122,
R123, 00_scope.md R9). -/

namespace Sys2Proof.Machine

/-- The host supplies one more input integer; nothing else changes, so a blocked core can step (44_syscall.md R123). -/
def State.supplyInput (s : State) (v : Word) : State := { s with input := s.input ++ [v] }

/-- The decimal text of an integer: a leading `-` for negative values, no leading zeros, no `+` (44_syscall.md R122; UNVERIFIED:
decision D17, log entry 16). -/
def renderInt (v : Word) : List Char :=
  if v.toInt < 0 then '-' :: Nat.toDigits 10 v.toInt.natAbs else Nat.toDigits 10 v.toInt.natAbs

/-- The host text of an output stream: each integer followed by one newline character (44_syscall.md R122). -/
def renderOutput (out : List Word) : List Char := (out.map fun v => renderInt v ++ ['\n']).flatten

/-- The final Register File the Reporter reads, the 29 names with their values; defined only when the core is halted
(00_scope.md R9, 40_execution_loop.md R84, R88). -/
def State.snapshot (s : State) : Option (List (RegName × Word)) :=
  if s.latch = none ∧ s.inProgram = false then some (RegName.all.map fun r => (r, s.reg r.specifier)) else none

end Sys2Proof.Machine
end

