-- ==== Sys2Proof/Machine/Resolver.lean ====
section
/-! DEFINITION. The resolver, from tokens to words (30_encoding.md R61 to R67), and the Loader's hand-over (00_scope.md R7, IF8)
from lines already split into tokens (log entry 22). -/

namespace Sys2Proof

/-- Why the resolver refuses a program (R67; UNVERIFIED: decision D14, log entry 14). -/
inductive ResolveError where
  /-- a slot with no tokens -/
  | noTokens
  /-- fewer operand tokens than the mnemonic needs -/
  | missingOperand (m : Mnemonic)
  deriving DecidableEq, Repr

/-- `Resolve(tokens, LT)` (R61). Tokens beyond those a mnemonic uses are ignored (R67). -/
def resolve (lt : LabelTable) : TokenInstr → Except ResolveError IWord
  | [] => .error .noTokens
  | op :: args =>
    match Mnemonic.ofToken? op, args with
    | some .li, dst :: imm :: _ => .ok (makeWord 0x01 (regOfToken dst) 0 0 (parseInt imm))
    | some .add, dst :: src1 :: src2 :: _ => .ok (makeWord 0x02 (regOfToken dst) (regOfToken src1) (regOfToken src2) 0)
    | some .addi, dst :: src :: imm :: _ => .ok (makeWord 0x03 (regOfToken dst) (regOfToken src) 0 (parseInt imm))
    | some .b, l :: _ => .ok (makeWord 0x04 0 0 0 (lt.target l))
    | some .beq, r1 :: r2 :: l :: _ => .ok (makeWord 0x05 (regOfToken r1) (regOfToken r2) 0 (lt.target l))
    | some .bgt, r1 :: r2 :: l :: _ => .ok (makeWord 0x06 (regOfToken r1) (regOfToken r2) 0 (lt.target l))
    | some .ble, r1 :: r2 :: l :: _ => .ok (makeWord 0x07 (regOfToken r1) (regOfToken r2) 0 (lt.target l))
    | some .jal, l :: _ => .ok (makeWord 0x08 0 0 0 (lt.target l))
    | some .ret, _ => .ok (makeWord 0x09 0 0 0 0)
    | some .sw, src :: addrReg :: _ => .ok (makeWord 0x0A (regOfToken src) (regOfToken addrReg) 0 0)
    | some .lw, dst :: addrReg :: _ => .ok (makeWord 0x0B (regOfToken dst) (regOfToken addrReg) 0 0)
    | some .ecall, code :: _ => .ok (makeWord 0x0C 0 0 0 (codeOfToken code))
    | some m, _ => .error (.missingOperand m)
    | none, _ => .ok (makeWord 0x00 0 0 0 0)

/-- The resolver over all slots, once the label table is complete (R61): it refuses the whole program at the first slot it
cannot resolve (R67). -/
def resolveAll (lt : LabelTable) : List TokenInstr → Except ResolveError (List IWord)
  | [] => .ok []
  | t :: ts =>
    match resolve lt t with
    | .error e => .error e
    | .ok w =>
      match resolveAll lt ts with
      | .error e => .error e
      | .ok ws => .ok (w :: ws)

/-- What the host hands the core before reset (00_scope.md R6, IF8), the instructions already resolved. -/
structure Image where
  words : List IWord
  labels : LabelTable
  deriving DecidableEq, Repr

/-- The slots of a source: comment lines are dropped before slots are numbered (R50, R51). -/
def slotsOfLines (lines : List TokenInstr) : List TokenInstr := lines.filter fun l => !isComment l

/-- Load a program from its lines: slots, label table, words (R50 to R53, R61). -/
def loadProgram (lines : List TokenInstr) : Except ResolveError Image :=
  let slots := slotsOfLines lines
  let labels := buildLabels slots
  match resolveAll labels slots with
  | .error e => .error e
  | .ok words => .ok { words := words, labels := labels }

end Sys2Proof
end

