-- ==== Sys2Proof/Machine/Reset.lean ====
section
/-! DEFINITION. Reset, the start of a run (70_reset_and_hazards.md R160 to R162). -/

namespace Sys2Proof.Machine

/-- `Reset(P, LT, input)` under an ENTRY_MISSING_POLICY (R160). -/
def State.resetWith (policy : Config.EntryMissingPolicy) (image : Image) (input : List Word) : State :=
  let started : State :=
    { regs := Vector.replicate 29 0#Config.xlen, pc := 0#Config.xlen, stack := [], latch := none, output := [], input := input,
      program := image.words, labels := image.labels }
  match image.labels.find Config.entryLabel, policy with
  | some i, _ => started.setPc (BitVec.ofNat Config.xlen i)
  | none, .fault => started.takeFault .entryLabelMissing
  | none, .startAt0 => started

/-- Load a program and reset (00_scope.md R7, 70_reset_and_hazards.md R160): no reset happens for a refused program
(30_encoding.md R67). -/
def boot (lines : List TokenInstr) (input : List Word) : Except ResolveError State :=
  match loadProgram lines with
  | .error e => .error e
  | .ok image => .ok (State.resetWith Config.entryMissingPolicy image input)

/-- A second run of the loaded program: a new reset, nothing of the run before survives (10_state.md R29). -/
def State.restart (s : State) (input : List Word) : State :=
  State.resetWith Config.entryMissingPolicy { words := s.program, labels := s.labels } input

end Sys2Proof.Machine
end

