-- ==== Sys2Proof/Machine/TokenLevel.lean ====
section
/-! DEFINITION. The token level (00_scope.md section 5): what a token instruction does, written from the rows of the source's
opcode table that R91 to R130 quote, with registers read and written by name. The word level must agree with it (30_encoding.md
R68). -/

namespace Sys2Proof.Machine

/-- `get(register)`: an unknown name reads as 0 (10_state.md R15). -/
def State.readName (s : State) (tok : Token) : Word :=
  match RegName.ofToken? tok with
  | some r => s.reg r.specifier
  | none => 0#Config.xlen

/-- `set(register, int)`: a write to an unknown name is discarded (10_state.md R15). -/
def State.writeName (s : State) (tok : Token) (v : Word) : State :=
  match RegName.ofToken? tok with
  | some r => s.setReg r.specifier v
  | none => s

/-- "label's index if taken else pc+1". -/
def State.jumpWhen (s : State) (taken : Prop) [Decidable taken] (label : Token) : State :=
  if taken then s.setPc (s.labels.target label) else s.advance

/-- One token instruction in a state whose label table is complete; none where the resolver refuses it, so that it never
executes (30_encoding.md R67). -/
def execTokens (t : TokenInstr) (s : State) : Option Result :=
  match t with
  | [] => none
  | op :: args =>
    match Mnemonic.ofToken? op with
    | none => some (.next s.advance)
    | some .li =>
      match args with
      | dst :: imm :: _ => some (.next (s.writeName dst (parseInt imm)).advance)
      | _ => none
    | some .add =>
      match args with
      | dst :: src1 :: src2 :: _ => some (.next (s.writeName dst (s.readName src1 + s.readName src2)).advance)
      | _ => none
    | some .addi =>
      match args with
      | dst :: src :: imm :: _ => some (.next (s.writeName dst (s.readName src + parseInt imm)).advance)
      | _ => none
    | some .b =>
      match args with
      | label :: _ => some (.next (s.setPc (s.labels.target label)))
      | _ => none
    | some .beq =>
      match args with
      | r1 :: r2 :: label :: _ => some (.next (s.jumpWhen (s.readName r1 = s.readName r2) label))
      | _ => none
    | some .bgt =>
      match args with
      | r1 :: r2 :: label :: _ => some (.next (s.jumpWhen ((s.readName r1).toInt > (s.readName r2).toInt) label))
      | _ => none
    | some .ble =>
      match args with
      | r1 :: r2 :: label :: _ => some (.next (s.jumpWhen ((s.readName r1).toInt ≤ (s.readName r2).toInt) label))
      | _ => none
    | some .jal =>
      match args with
      | label :: _ => some (.next ((s.writeName "ra".toList s.pc).setPc (s.labels.target label)))
      | _ => none
    | some .ret => some (.next (s.setPc (s.readName "ra".toList + 1#Config.xlen)))
    | some .sw =>
      match args with
      | src :: addrReg :: _ =>
        match s.memWrite (s.readName addrReg) (s.readName src) with
        | .ok u => some (.next u.advance)
        | .error cause => some (.next (s.takeFault cause))
      | _ => none
    | some .lw =>
      match args with
      | dst :: addrReg :: _ =>
        match s.memRead (s.readName addrReg) with
        | .ok v => some (.next (s.writeName dst v).advance)
        | .error cause => some (.next (s.takeFault cause))
      | _ => none
    | some .ecall =>
      match args with
      | code :: _ =>
        if code = "1".toList then some (.next (s.emit (s.readName "a0".toList)).advance)
        else if code = "5".toList then
          match s.takeInput with
          | none => some (.fault .blockedOnInput)
          | some (v, u) => some (.next (u.writeName "a0".toList v).advance)
        else some (.next s.advance)
      | _ => none

end Sys2Proof.Machine
end

