-- ==== Sys2Proof/WellFormed.lean ====
section
/-! DEFINITION. Well-formed instructions, label tables and programs: what the resolver can hand the core. The core itself
rejects nothing while executing (00_scope.md R4, 30_encoding.md R70), so no meaning asks for these checks; every instruction
term can be encoded. -/

namespace Sys2Proof

/-- A specifier the resolver can emit: a register's, or 255 for the absent register (30_encoding.md R62). -/
def specifierOk (p : Specifier) : Bool := decide (p.toNat < Config.nreg) || p == 255#8

/-- A branch target the resolver can emit for a program of `n` slots: a slot index (30_encoding.md R64). -/
def targetOk (n : Nat) (target : Word) : Bool := decide (0 ≤ target.toInt) && decide (target.toInt < n)

/-- A syscall code the resolver can emit (30_encoding.md R65). -/
def codeOk (code : Word) : Bool := code == 0#Config.xlen || code == 1#Config.xlen || code == 5#Config.xlen

/-- An instruction the resolver can emit for a program of `n` slots (30_encoding.md R61 to R66). -/
def Instr.wellFormed (n : Nat) : Instr → Bool
  | .nop => true
  | .li dst _ => specifierOk dst
  | .add dst src1 src2 => specifierOk dst && specifierOk src1 && specifierOk src2
  | .addi dst src _ => specifierOk dst && specifierOk src
  | .b target => targetOk n target
  | .beq r1 r2 target => specifierOk r1 && specifierOk r2 && targetOk n target
  | .bgt r1 r2 target => specifierOk r1 && specifierOk r2 && targetOk n target
  | .ble r1 r2 target => specifierOk r1 && specifierOk r2 && targetOk n target
  | .jal target => targetOk n target
  | .ret => true
  | .sw src addrReg => specifierOk src && specifierOk addrReg
  | .lw dst addrReg => specifierOk dst && specifierOk addrReg
  | .ecall code => codeOk code

/-- A label table for a program of `n` slots: every value is a slot index (92_eei_decisions.md D22) and no string is bound
twice. -/
abbrev LabelTable.wellFormed (n : Nat) (lt : LabelTable) : Prop :=
  (∀ e ∈ lt, e.2 < n) ∧ lt.Pairwise fun e f => e.1 ≠ f.1

/-- A program of `n` slots is within the bound of 00_scope.md R5. -/
def programSizeOk (n : Nat) : Bool := decide (n ≤ Config.maxSlots)

end Sys2Proof
end

