-- ==== Sys2Proof/Safety.lean ====
section
/-! DEFINITION. The terms claims use: how a run can stand still, what an instruction leaves unchanged, the invariant of the
state, straight-line replay, and a run under fuel. -/

namespace Sys2Proof.Machine

/-! ### How a run can stand still (40_execution_loop.md R84, R87) -/

/-- No fault is latched and the pc is outside the program: the normal end (R84). -/
abbrev State.Halted (s : State) : Prop := s.latch = none ∧ (s.pc.toInt < 0 ∨ (s.program.length : Int) ≤ s.pc.toInt)

/-- A fault is latched: the run was aborted (60_exceptions.md R144). -/
abbrev State.Faulted (s : State) : Prop := s.latch ≠ none

/-- The instruction the next step would run, if there is one. -/
def State.current (s : State) : Option Instr := s.fetch.map decodeWord

/-- The current instruction is `ecall 5` and the input stream is empty (R82, 44_syscall.md R123). -/
abbrev State.Blocked (s : State) : Prop := s.latch = none ∧ s.current = some (.ecall 5#Config.xlen) ∧ s.input = []

/-- `Enabled(s)` of R82. -/
abbrev State.Enabled (s : State) : Prop :=
  s.latch = none ∧ (0 ≤ s.pc.toInt ∧ s.pc.toInt < s.program.length) ∧
    ¬(s.current = some (.ecall 5#Config.xlen) ∧ s.input = [])

/-! ### What is left unchanged -/

/-- Every register but `d` reads as before. -/
def SameRegsBut (d : Specifier) (s t : State) : Prop := ∀ r, r ≠ d → t.reg r = s.reg r

/-- Every register reads as before. -/
def SameRegs (s t : State) : Prop := ∀ r, t.reg r = s.reg r

/-- Every stack cell reads as before. -/
def SameStack (s t : State) : Prop := ∀ a, t.stack.read a = s.stack.read a

/-- Every stack cell but the one at index `a` reads as before. -/
def SameStackBut (a : Nat) (s t : State) : Prop := ∀ c, c ≠ a → t.stack.read c = s.stack.read c

/-- Both console streams are as before. -/
def SameConsole (s t : State) : Prop := t.output = s.output ∧ t.input = s.input

/-- The run's parameters and the fault latch are as before. -/
def SameRun (s t : State) : Prop := t.program = s.program ∧ t.labels = s.labels ∧ t.latch = s.latch

/-! ### The families (00_scope.md R2, 30_encoding.md R69) -/

/-- The instruction families of the dispatcher. -/
inductive Family where
  | default
  | arithmetic
  | branch
  | memory
  | syscall
  deriving DecidableEq, Repr

/-- The family of an instruction. -/
def Family.ofInstr : Instr → Family
  | .nop => .default
  | .li _ _ => .arithmetic
  | .add _ _ _ => .arithmetic
  | .addi _ _ _ => .arithmetic
  | .b _ => .branch
  | .beq _ _ _ => .branch
  | .bgt _ _ _ => .branch
  | .ble _ _ _ => .branch
  | .jal _ => .branch
  | .ret => .branch
  | .sw _ _ => .memory
  | .lw _ _ => .memory
  | .ecall _ => .syscall

/-- The target of a branch that has one in its word; `ret` has none (42_branch.md R101). -/
def wordTarget? : Instr → Option Word
  | .nop => none
  | .li _ _ => none
  | .add _ _ _ => none
  | .addi _ _ _ => none
  | .b target => some target
  | .beq _ _ target => some target
  | .bgt _ _ target => some target
  | .ble _ _ target => some target
  | .jal target => some target
  | .ret => none
  | .sw _ _ => none
  | .lw _ _ => none
  | .ecall _ => none

/-! ### The invariant -/

/-- What a latched cause says of the state it stands in: the frozen state shows the faulting instruction at the pc
(60_exceptions.md R141, R144). -/
def State.Explains (s : State) : FaultCause → Prop
  | .entryLabelMissing => s.pc = 0#Config.xlen ∧ s.labels.find Config.entryLabel = none
  | .stackOutOfBounds addr pc .load =>
    inBounds addr = false ∧ pc = s.pc ∧ ∃ dst areg, s.current = some (.lw dst areg) ∧ s.reg areg = addr
  | .stackOutOfBounds addr pc .store =>
    inBounds addr = false ∧ pc = s.pc ∧ ∃ src areg, s.current = some (.sw src areg) ∧ s.reg areg = addr

/-- What holds of every state of a run: canonical in-range stack memory, a program within the size bound, label values that
are slot indices, and a latch whose information is that of its cause. -/
structure State.Inv (s : State) : Prop where
  stackWf : s.stack.wf
  sizeOk : s.program.length ≤ Config.maxSlots
  labelsOk : LabelTable.wellFormed s.program.length s.labels
  latchOk : ∀ cause, s.latch = some cause → s.Explains cause

/-! ### Straight-line programs (40_execution_loop.md R89) -/

/-- Neither a control-flow instruction nor `lw` nor `ecall 5`: of these only `li`, `add` and `addi` write a register. -/
def straightLine : Instr → Bool
  | .nop => true
  | .li _ _ => true
  | .add _ _ _ => true
  | .addi _ _ _ => true
  | .b _ => false
  | .beq _ _ _ => false
  | .bgt _ _ _ => false
  | .ble _ _ _ => false
  | .jal _ => false
  | .ret => false
  | .sw _ _ => true
  | .lw _ _ => false
  | .ecall code => decide (code ≠ 5#Config.xlen)

/-- A register file as a function of the specifier, for replaying effects without the machine. -/
abbrev RegView := List Word

/-- Read a register of a replayed file; absent registers read 0. -/
def RegView.get (f : RegView) (r : Specifier) : Word := f.getD r.toNat 0#Config.xlen

/-- The effect of one instruction of R89 on a replayed register file. -/
def replayOne (f : RegView) : Instr → RegView
  | .li dst imm => f.set dst.toNat imm
  | .add dst src1 src2 => f.set dst.toNat (f.get src1 + f.get src2)
  | .addi dst src imm => f.set dst.toNat (f.get src + imm)
  | _ => f

/-- Replay instructions in program order. -/
def replay (f : RegView) (is : List Instr) : RegView := is.foldl replayOne f

/-! ### Forward runs (40_execution_loop.md R89 (b), 90_conflicts.md C8) -/

/-- Where an instruction transfers control in a state: the target of a branch that is taken, the return address of `ret`; none
where it goes on at pc + 1 (42_branch.md R104 to R109). -/
def takenTarget? (i : Instr) (s : State) : Option Word :=
  match i with
  | .b target => some target
  | .beq r1 r2 target => if s.reg r1 = s.reg r2 then some target else none
  | .bgt r1 r2 target => if (s.reg r1).toInt > (s.reg r2).toInt then some target else none
  | .ble r1 r2 target => if (s.reg r1).toInt ≤ (s.reg r2).toInt then some target else none
  | .jal target => some target
  | .ret => some (s.reg regRa + 1#Config.xlen)
  | .nop => none
  | .li _ _ => none
  | .add _ _ _ => none
  | .addi _ _ _ => none
  | .sw _ _ => none
  | .lw _ _ => none
  | .ecall _ => none

/-- The exact condition of R89 (b), on the run from a state: every transfer the run takes goes forward, and no `ecall 5`
blocks. -/
def State.RunGoesForward (s : State) : Prop :=
  ∀ (k : Nat) (t : State), Host.Core.run core k s = .next t → t.latch = none →
    (∀ i target, t.current = some i → takenTarget? i t = some target → t.pc.toInt < target.toInt) ∧ ¬t.Blocked

/-- A check of the instruction in slot `i` by its text alone, enough for `RunGoesForward` but asking more: its target, taken or
not, lies after the slot, and it is neither `ret` nor `ecall 5`. -/
def goesForward (slot : Nat) : Instr → Bool
  | .b target => decide ((slot : Int) < target.toInt)
  | .beq _ _ target => decide ((slot : Int) < target.toInt)
  | .bgt _ _ target => decide ((slot : Int) < target.toInt)
  | .ble _ _ target => decide ((slot : Int) < target.toInt)
  | .jal target => decide ((slot : Int) < target.toInt)
  | .ret => false
  | .ecall code => decide (code ≠ 5#Config.xlen)
  | .nop => true
  | .li _ _ => true
  | .add _ _ _ => true
  | .addi _ _ _ => true
  | .sw _ _ => true
  | .lw _ _ => true

/-! ### A run under fuel (40_execution_loop.md R86, R87) -/

/-- How a run under fuel came out; exhausted fuel is "did not finish", never a halt (R86). -/
inductive RunEnd where
  | halted (s : State)
  | faulted (s : State) (cause : FaultCause)
  | blocked (s : State)
  | didNotFinish (s : State)
  deriving DecidableEq, Repr

/-- Run at most `fuel` steps. -/
def runFor : Nat → State → RunEnd
  | fuel, s =>
    match s.latch with
    | some cause => .faulted s cause
    | none =>
      if s.inProgram = false then .halted s
      else
        match fuel with
        | 0 => .didNotFinish s
        | fuel + 1 =>
          match step s with
          | .next t => runFor fuel t
          | .fault _ => .blocked s
          | .refused _ => .didNotFinish s

/-- The same under the configured ceiling `MAX_STEPS`, which is none (R86). -/
def runUnderCeiling (fuel : Nat) (s : State) : RunEnd :=
  match Config.maxSteps with
  | none => runFor fuel s
  | some ceiling => runFor (min fuel ceiling) s

/-! ### Integer literals (30_encoding.md R63) -/

/-- The value of decimal digits, the most significant first. -/
def decimalValue (ds : List Char) : Nat := ds.foldl (fun n d => 10 * n + (d.toNat - '0'.toNat)) 0

/-- The token is "an optional single `+` or `-` followed by one or more decimal digits `0` to `9`, with nothing else in the
token", and the integer is what it denotes, in range or not. -/
def IsLiteral (tok : Token) (v : Int) : Prop :=
  ∃ ds : List Char, ds ≠ [] ∧ (∀ d ∈ ds, '0'.toNat ≤ d.toNat ∧ d.toNat ≤ '9'.toNat) ∧
    (tok = ds ∧ v = decimalValue ds ∨ tok = '+' :: ds ∧ v = decimalValue ds ∨ tok = '-' :: ds ∧ v = -(decimalValue ds : Int))

end Sys2Proof.Machine
end

