-- ==== Sys2Proof/Certificates/Slice0/Obligations.lean ====
section
/-! DEFINITION. The statements for the provers. A docstring names the rule of spec/ a statement formalises; where a clause rests
on a decision the spec marks as its own, or on a choice of the model, it says so and names the decision and the log entry. -/

open Sys2Proof Sys2Proof.Machine

/-! ### Reset, the invariant -/

/-- Reset leaves the start state of 10_state.md section 7: every register 0, every cell 0 (decision D6, log entry 6), the output
empty, the input the run's parameter, the program and table loaded; the pc at `$main` with no fault, or, where `$main` is not
bound, what the policy says (decision D8, log entry 9). -/
def Obligations.ResetEstablishesStartState : Prop :=
  ∀ (policy : Config.EntryMissingPolicy) (image : Image) (input : List Word),
    (∀ r, (State.resetWith policy image input).reg r = 0) ∧
    (∀ a, (State.resetWith policy image input).stack.read a = 0) ∧
    (State.resetWith policy image input).output = [] ∧
    (State.resetWith policy image input).input = input ∧
    (State.resetWith policy image input).program = image.words ∧
    (State.resetWith policy image input).labels = image.labels ∧
    (∀ i, image.labels.find "$main".toList = some i →
      (State.resetWith policy image input).pc = BitVec.ofNat Config.xlen i ∧ (State.resetWith policy image input).latch = none) ∧
    (image.labels.find "$main".toList = none →
      (State.resetWith policy image input).pc = 0 ∧
      (State.resetWith policy image input).latch =
        match policy with
        | .fault => some .entryLabelMissing
        | .startAt0 => none)

/-- The invariant holds at `State.reset`, and after a reset with any well-formed image under either policy. -/
def Obligations.ResetSatisfiesTheInvariant : Prop :=
  State.reset.Inv ∧
  ∀ (policy : Config.EntryMissingPolicy) (image : Image) (input : List Word),
    image.words.length ≤ Config.maxSlots → LabelTable.wellFormed image.words.length image.labels →
    (State.resetWith policy image input).Inv

/-- Every step keeps the invariant: stack memory stays canonical and within cells 0 to 8095 (20_memory.md R38), the program
stays within the size bound, label values stay slot indices, and a latched cause is the true cause in the frozen state
(60_exceptions.md R141, R144). -/
def Obligations.StepKeepsTheInvariant : Prop :=
  ∀ s t : State, s.Inv → step s = .next t → t.Inv

/-- The canonical form of stack memory: two well-formed memories whose cells all read alike are equal data (the model's own
choice of form, log entry 7). -/
def Obligations.CanonicalMemoriesReadingAlikeAreEqual : Prop :=
  ∀ m n : Memory, m.wf → n.wf → (∀ a, Memory.read m a = Memory.read n a) → m = n

/-! ### Encoding -/

/-- Decode and encode agree: the bytes of any instruction, every operand at every value its field admits, decode to it and leave
the rest of the image (30_encoding.md section 2 and R72; the word format is decisions D10, D11 and D16, log entry 12). -/
def Obligations.DecodeOfEncodeIsTheInstruction : Prop :=
  ∀ (i : Instr) (rest : List Byte), decode (encodeBytes i ++ rest) = .ok (i, rest)

/-- The other direction: a word with an `op` of the map and 0 in its unused fields is the word of the instruction it decodes to
(decisions D10, D11, log entry 12). -/
def Obligations.EncodeOfDecodeIsTheCanonicalWord : Prop :=
  ∀ w : IWord, (fieldOp w).toNat ≤ 0x0C →
    ((fieldUse (fieldOp w)).p1 = false → fieldP1 w = 0) → ((fieldUse (fieldOp w)).p2 = false → fieldP2 w = 0) →
    ((fieldUse (fieldOp w)).p3 = false → fieldP3 w = 0) → ((fieldUse (fieldOp w)).imm = false → fieldImm w = 0) →
    encode (decodeWord w) = w

/-- The decoder ignores unused fields: words that agree on `op` and on the fields the format table R57 says `op` uses decode
alike (decision D11, log entry 12). -/
def Obligations.UnusedFieldsAreIgnored : Prop :=
  ∀ w w' : IWord, fieldOp w' = fieldOp w →
    ((fieldUse (fieldOp w)).p1 = true → fieldP1 w' = fieldP1 w) →
    ((fieldUse (fieldOp w)).p2 = true → fieldP2 w' = fieldP2 w) →
    ((fieldUse (fieldOp w)).p3 = true → fieldP3 w' = fieldP3 w) →
    ((fieldUse (fieldOp w)).imm = true → fieldImm w' = fieldImm w) →
    decodeWord w' = decodeWord w

/-- The reserved `op` values 0x0D to 0xFF decode to the no-op whatever the other fields hold (45_nop.md R131; decision D11, log
entry 12). -/
def Obligations.ReservedOpsDecodeToNop : Prop :=
  ∀ w : IWord, 0x0D ≤ (fieldOp w).toNat → decodeWord w = .nop

/-- Words of 95_test_vectors.md, at least one of each family, decode to the instructions they stand for. -/
def Obligations.SampleWordsDecode : Prop :=
  decodeWord 0x000000000000000000000000#96 = .nop ∧
  decodeWord 0x123456789ABCDEF0112233FF#96 = .nop ∧
  decodeWord 0xFFFFFFFFFFFFFFFF00000301#96 = .li 3#8 (-1) ∧
  decodeWord 0x000000000000000009101C02#96 = .add 28#8 16#8 9#8 ∧
  decodeWord 0x00000000EE6B280000020203#96 = .addi 2#8 2#8 4000000000#64 ∧
  decodeWord 0x000000000000000900000004#96 = .b 9#64 ∧
  decodeWord 0x000000000000000900050405#96 = .beq 4#8 5#8 9#64 ∧
  decodeWord 0x000000000000000900040306#96 = .bgt 3#8 4#8 9#64 ∧
  decodeWord 0x000000000000000000100907#96 = .ble 9#8 16#8 0#64 ∧
  decodeWord 0x000000000000000900000008#96 = .jal 9#64 ∧
  decodeWord 0x000000000000000000000009#96 = .ret ∧
  decodeWord 0x00000000000000000011100A#96 = .sw 16#8 17#8 ∧
  decodeWord 0x000000000000000000110A0B#96 = .lw 10#8 17#8 ∧
  decodeWord 0x00000000000000050000000C#96 = .ecall 5#64

/-- A program image takes 12 bytes a word, slot `i` starts at byte `12 * i` with its `op` byte, and the image reads back as the
same words (30_encoding.md R60; decision D16, log entry 12). -/
def Obligations.ProgramImageRoundTrips : Prop :=
  ∀ (ws : List IWord) (fuel : Nat), ws.length ≤ fuel →
    imageWords fuel (imageBytes ws) = .ok ws ∧ (imageBytes ws).length = 12 * ws.length ∧
    ∀ i w, ws[i]? = some w → (imageBytes ws)[12 * i]? = some (fieldOp w) ∧ ((imageBytes ws).drop (12 * i)).take 12 = wordBytes w

/-! ### The step -/

/-- A step runs the decoded instruction: with no fault latched and the pc within the program, it reads the one slot the pc names
and is that instruction's rule on the unchanged state; fetch itself changes nothing and cannot fault (40_execution_loop.md
R81). -/
def Obligations.StepRunsTheFetchedInstruction : Prop :=
  ∀ s : State, s.latch = none → 0 ≤ s.pc.toInt → s.pc.toInt < s.program.length →
    ∃ w, s.program[s.pc.toNat]? = some w ∧
      ∀ i, decode (wordBytes w) = .ok (i, []) → step s = exec i s

/-- A step answers a next state exactly when `Enabled` of 40_execution_loop.md R82 holds. -/
def Obligations.StepAnswersNextExactlyWhenEnabled : Prop :=
  ∀ s : State, (∃ t, step s = .next t) ↔
    (s.latch = none ∧ (0 ≤ s.pc.toInt ∧ s.pc.toInt < s.program.length) ∧
      ¬((∃ w, s.program[s.pc.toNat]? = some w ∧ decodeWord w = .ecall 5) ∧ s.input = []))

/-- The three ways to stand still are told apart (40_execution_loop.md section on R87): a latched fault is sticky under any
number of steps, a pc outside the program is the normal end, an empty input stream blocks `ecall 5`. The outcomes' names are the
model's (log entries 8, 17, 18). -/
def Obligations.StandingStillIsToldApart : Prop :=
  (∀ (s : State) (cause : FaultCause) (k : Nat), s.latch = some cause →
    Host.Core.run core (k + 1) s = .fault (.aborted cause)) ∧
  (∀ (s : State) (k : Nat), s.latch = none → (s.pc.toInt < 0 ∨ (s.program.length : Int) ≤ s.pc.toInt) →
    Host.Core.run core (k + 1) s = .fault .halted) ∧
  (∀ (s : State) (w : IWord) (k : Nat), s.latch = none → 0 ≤ s.pc.toInt → s.pc.toInt < s.program.length →
    s.program[s.pc.toNat]? = some w → decodeWord w = .ecall 5 → s.input = [] →
    Host.Core.run core (k + 1) s = .fault .blockedOnInput)

/-- The instruction fetched at any index, and the label table, are the same for the whole run (20_memory.md R45). -/
def Obligations.ProgramIsTheSameForTheWholeRun : Prop :=
  ∀ (k : Nat) (s t : State), Host.Core.run core k s = .next t →
    (∀ i : Nat, t.program[i]? = s.program[i]?) ∧ t.labels = s.labels

/-- A second run starts with a new reset and nothing survives from the run before it (10_state.md R29). -/
def Obligations.RestartForgetsTheRun : Prop :=
  ∀ (k : Nat) (s t : State) (input : List Word), Host.Core.run core k s = .next t → t.restart input = s.restart input

/-! ### The arithmetic family -/

/-- `li dst imm` completes in every state: `dst` takes the immediate, or nothing is written when it is the absent register;
everything else is unchanged and the pc steps on (41_arithmetic.md, `li`; the 64-bit width is decision D1, the absent register's
discarded write decision D3, log entries 1 and 3). -/
def Obligations.LiLoadsTheImmediate : Prop :=
  ∀ (dst : Specifier) (imm : Word) (s : State),
    ∃ t, exec (.li dst imm) s = .next t ∧ t.pc = s.pc + 1 ∧
      t.reg dst = (if dst.toNat < 29 then imm else 0) ∧
      SameRegsBut dst s t ∧ SameStack s t ∧ SameConsole s t ∧ SameRun s t

/-- `add dst src1 src2` completes in every state: `dst` takes the sum modulo 2^64 of the sources as they were before, or
nothing is written when it is the absent register, and nothing else changes but the pc (41_arithmetic.md, `add`; the width and
the wrap are decision D1, the discarded write decision D3, log entries 1 and 3). -/
def Obligations.AddSumsItsSources : Prop :=
  ∀ (dst src1 src2 : Specifier) (s : State),
    ∃ t, exec (.add dst src1 src2) s = .next t ∧ t.pc = s.pc + 1 ∧
      t.reg dst = (if dst.toNat < 29 then BitVec.ofNat Config.xlen ((s.reg src1).toNat + (s.reg src2).toNat) else 0) ∧
      SameRegsBut dst s t ∧ SameStack s t ∧ SameConsole s t ∧ SameRun s t

/-- `addi dst src imm` completes in every state: `dst` takes the sum modulo 2^64 of the source as it was before and the
immediate, or nothing is written when it is the absent register, and nothing else changes but the pc (41_arithmetic.md, `addi`;
decisions D1 and D3, log entries 1 and 3). -/
def Obligations.AddiSumsSourceAndImmediate : Prop :=
  ∀ (dst src : Specifier) (imm : Word) (s : State),
    ∃ t, exec (.addi dst src imm) s = .next t ∧ t.pc = s.pc + 1 ∧
      t.reg dst = (if dst.toNat < 29 then BitVec.ofNat Config.xlen ((s.reg src).toNat + imm.toNat) else 0) ∧
      SameRegsBut dst s t ∧ SameStack s t ∧ SameConsole s t ∧ SameRun s t

/-- On signed values the sum an instruction leaves is `((a + b + 2^63) mod 2^64) - 2^63`, for `add` and `addi` alike
(41_arithmetic.md section on R94; decision D1, log entry 1). -/
def Obligations.SumsWrapOnSignedValues : Prop :=
  ∀ (dst src1 src2 : Specifier) (imm : Word) (s t u : State), dst.toNat < 29 →
    exec (.add dst src1 src2) s = .next t → exec (.addi dst src1 imm) s = .next u →
    (t.reg dst).toInt = ((s.reg src1).toInt + (s.reg src2).toInt + 2 ^ 63) % 2 ^ 64 - 2 ^ 63 ∧
    (u.reg dst).toInt = ((s.reg src1).toInt + imm.toInt + 2 ^ 63) % 2 ^ 64 - 2 ^ 63

/-! ### The branch family -/

/-- `b label` completes in every state: the pc is the target and no register, cell or stream is read or written
(42_branch.md R104). -/
def Obligations.BRedirectsAlways : Prop :=
  ∀ (target : Word) (s : State),
    ∃ t, exec (.b target) s = .next t ∧ t.pc = target ∧
      SameRegs s t ∧ SameStack s t ∧ SameConsole s t ∧ SameRun s t

/-- `beq r1 r2 label` completes in every state: to the target if the registers are equal, else to pc + 1, and nothing else
changes (42_branch.md R105). -/
def Obligations.BeqRedirectsIffEqual : Prop :=
  ∀ (r1 r2 : Specifier) (target : Word) (s : State),
    ∃ t, exec (.beq r1 r2 target) s = .next t ∧
      (s.reg r1 = s.reg r2 → t.pc = target) ∧ (s.reg r1 ≠ s.reg r2 → t.pc = s.pc + 1) ∧
      SameRegs s t ∧ SameStack s t ∧ SameConsole s t ∧ SameRun s t

/-- `bgt r1 r2 label` completes in every state: to the target if the first register is greater as a signed value, else to
pc + 1, and nothing else changes (42_branch.md R106). -/
def Obligations.BgtRedirectsIffGreater : Prop :=
  ∀ (r1 r2 : Specifier) (target : Word) (s : State),
    ∃ t, exec (.bgt r1 r2 target) s = .next t ∧
      ((s.reg r1).toInt > (s.reg r2).toInt → t.pc = target) ∧
      (¬(s.reg r1).toInt > (s.reg r2).toInt → t.pc = s.pc + 1) ∧
      SameRegs s t ∧ SameStack s t ∧ SameConsole s t ∧ SameRun s t

/-- `ble r1 r2 label` completes in every state: to the target if the first register is less or equal as a signed value, else to
pc + 1, and nothing else changes (42_branch.md R107). -/
def Obligations.BleRedirectsIffLessOrEqual : Prop :=
  ∀ (r1 r2 : Specifier) (target : Word) (s : State),
    ∃ t, exec (.ble r1 r2 target) s = .next t ∧
      ((s.reg r1).toInt ≤ (s.reg r2).toInt → t.pc = target) ∧
      (¬(s.reg r1).toInt ≤ (s.reg r2).toInt → t.pc = s.pc + 1) ∧
      SameRegs s t ∧ SameStack s t ∧ SameConsole s t ∧ SameRun s t

/-- The comparisons are signed and write nothing, and `ble` is the exact complement of `bgt`: for every pair of values exactly
one of the two goes to its target (42_branch.md R102). -/
def Obligations.ComparisonsAreSignedAndBleComplementsBgt : Prop :=
  ∀ (r1 r2 : Specifier) (target : Word) (s e g l : State), target ≠ s.pc + 1 →
    exec (.beq r1 r2 target) s = .next e → exec (.bgt r1 r2 target) s = .next g → exec (.ble r1 r2 target) s = .next l →
    (e.pc = target ↔ (s.reg r1).toInt = (s.reg r2).toInt) ∧
    (g.pc = target ↔ (s.reg r1).toInt > (s.reg r2).toInt) ∧
    (l.pc = target ↔ (s.reg r1).toInt ≤ (s.reg r2).toInt) ∧
    (l.pc = target ↔ g.pc ≠ target) ∧
    (SameRegs s e ∧ SameStack s e ∧ SameConsole s e) ∧ (SameRegs s g ∧ SameStack s g ∧ SameConsole s g) ∧
    (SameRegs s l ∧ SameStack s l ∧ SameConsole s l)

/-- `jal label` completes in every state: `ra` takes the index of the `jal` itself, the pc is the target, and nothing else
changes (42_branch.md section 2, `jal`; which of the two adds 1 is decision D9, log entry 11). -/
def Obligations.JalLinksItsOwnIndex : Prop :=
  ∀ (target : Word) (s : State),
    ∃ t, exec (.jal target) s = .next t ∧ t.pc = target ∧ t.reg 1 = s.pc ∧
      SameRegsBut 1 s t ∧ SameStack s t ∧ SameConsole s t ∧ SameRun s t

/-- `ret` completes in every state: the pc is `ra + 1` modulo 2^64, and nothing else changes (42_branch.md section 2, `ret`;
decision D9, log entry 11). -/
def Obligations.RetGoesPastTheLink : Prop :=
  ∀ s : State,
    ∃ t, exec .ret s = .next t ∧ t.pc = s.reg 1 + 1 ∧
      SameRegs s t ∧ SameStack s t ∧ SameConsole s t ∧ SameRun s t

/-- A call returns: `ret` in any state whose `ra` is what a `jal` left there resumes at the slot after that `jal`; and a second
`jal` in between, at another slot, leaves another `ra`, so the outer return address is lost (42_branch.md section 3; the
source's testable property S4). -/
def Obligations.RetResumesAfterTheLastJal : Prop :=
  (∀ (target : Word) (s t u : State), exec (.jal target) s = .next t → u.reg 1 = t.reg 1 →
    ∃ v, exec .ret u = .next v ∧ v.pc = s.pc + 1) ∧
  (∀ (outer inner : Word) (s t u v : State), exec (.jal outer) s = .next t → u.reg 1 = t.reg 1 →
    exec (.jal inner) u = .next v → u.pc ≠ s.pc → v.reg 1 ≠ t.reg 1)

/-- The branch family and the rest (42_branch.md R100): only the branch family sets the pc to anything but pc + 1 (a fault sets
no pc); each of its members completes in every state, reads and writes neither stack memory nor the streams, cannot fault, and
writes no register but `ra` by `jal`; and one with a target in its word yields either that target or pc + 1. -/
def Obligations.OnlyTheBranchFamilyRedirects : Prop :=
  (∀ (i : Instr) (s t : State), Family.ofInstr i ≠ .branch → s.latch = none → exec i s = .next t → t.latch = none →
    t.pc = s.pc + 1) ∧
  (∀ (i : Instr) (s : State), Family.ofInstr i = .branch →
    ∃ t, exec i s = .next t ∧ t.latch = s.latch ∧
      (∀ target, wordTarget? i = some target → t.pc = target ∨ t.pc = s.pc + 1) ∧
      (∀ r, (∀ target, i = .jal target → r ≠ 1) → t.reg r = s.reg r) ∧
      ∀ (m : Memory) (o n : List Word),
        exec i { s with stack := m, output := o, input := n } = .next { t with stack := m, output := o, input := n })

/-! ### The memory family -/

/-- `sw src addrReg` (43_memory_ops.md, `sw`; the fault is decisions D7 and D20, log entry 8): with the address in 0 to 8095 as
a signed value it completes, the cell takes the whole source register and nothing else but the pc changes; with the address
outside, no cell is written, the pc stays at this `sw`, and the run is aborted by the fault `StackOutOfBounds(addr)`. -/
def Obligations.SwStoresOrFaults : Prop :=
  ∀ (src addrReg : Specifier) (s : State),
    (0 ≤ (s.reg addrReg).toInt ∧ (s.reg addrReg).toInt < 8096 →
      ∃ t, exec (.sw src addrReg) s = .next t ∧ t.pc = s.pc + 1 ∧
        t.stack.read (s.reg addrReg).toNat = s.reg src ∧ SameStackBut (s.reg addrReg).toNat s t ∧
        SameRegs s t ∧ SameConsole s t ∧ SameRun s t) ∧
    ((s.reg addrReg).toInt < 0 ∨ 8096 ≤ (s.reg addrReg).toInt →
      ∃ t, exec (.sw src addrReg) s = .next t ∧ t.pc = s.pc ∧
        t.latch = some (.stackOutOfBounds (s.reg addrReg) s.pc .store) ∧
        step t = .fault (.aborted (.stackOutOfBounds (s.reg addrReg) s.pc .store)) ∧
        SameRegs s t ∧ SameStack s t ∧ SameConsole s t ∧ t.program = s.program ∧ t.labels = s.labels)

/-- `lw dst addrReg` (43_memory_ops.md section on `lw`): with the address in 0 to 8095 as a signed value it completes, `dst`
takes the whole cell, the address being read first, and nothing else but the pc changes; with the address outside, `dst` is not
written and the fault is taken, also when `dst` is the absent register (decisions D7, D20 and D24, log entries 8
and 25). -/
def Obligations.LwLoadsOrFaults : Prop :=
  ∀ (dst addrReg : Specifier) (s : State),
    (0 ≤ (s.reg addrReg).toInt ∧ (s.reg addrReg).toInt < 8096 →
      ∃ t, exec (.lw dst addrReg) s = .next t ∧ t.pc = s.pc + 1 ∧
        t.reg dst = (if dst.toNat < 29 then s.stack.read (s.reg addrReg).toNat else 0) ∧
        SameRegsBut dst s t ∧ SameStack s t ∧ SameConsole s t ∧ SameRun s t) ∧
    ((s.reg addrReg).toInt < 0 ∨ 8096 ≤ (s.reg addrReg).toInt →
      ∃ t, exec (.lw dst addrReg) s = .next t ∧ t.pc = s.pc ∧
        t.latch = some (.stackOutOfBounds (s.reg addrReg) s.pc .load) ∧
        step t = .fault (.aborted (.stackOutOfBounds (s.reg addrReg) s.pc .load)) ∧
        SameRegs s t ∧ SameStack s t ∧ SameConsole s t ∧ t.program = s.program ∧ t.labels = s.labels)

/-- A store followed immediately by a load through the same address register gives the destination the source's prior value,
the address being in bounds, whichever of the registers coincide (20_memory.md R47). -/
def Obligations.StoreThenLoadRoundTrips : Prop :=
  ∀ (src dst addrReg : Specifier) (s : State), 0 ≤ (s.reg addrReg).toInt → (s.reg addrReg).toInt < 8096 → dst.toNat < 29 →
    ∃ t u, exec (.sw src addrReg) s = .next t ∧ exec (.lw dst addrReg) t = .next u ∧ u.reg dst = s.reg src

/-- Only the memory family reaches stack memory: every other instruction's outcome is the same whatever the cells hold, and
leaves them as they are; `lw` writes no cell (20_memory.md section on R37). -/
def Obligations.StackIsReachedOnlyByTheMemoryFamily : Prop :=
  (∀ (i : Instr) (s : State) (m : Memory), Family.ofInstr i ≠ .memory →
    (∀ t, exec i s = .next t → exec i { s with stack := m } = .next { t with stack := m } ∧ SameStack s t) ∧
    (∀ f, exec i s = .fault f → exec i { s with stack := m } = .fault f)) ∧
  (∀ (dst addrReg : Specifier) (s t : State), exec (.lw dst addrReg) s = .next t → SameStack s t)

/-! ### Faults -/

/-- Faults are precise and come from `sw` and `lw` alone: where an instruction sets the latch, the address it used is outside 0
to 8095, the latch records that address, the pc and the kind of access, and nothing else has changed (60_exceptions.md section
1; decisions D7 and D20, log entry 8). -/
def Obligations.FaultsArePreciseAndFromTheMemoryFamily : Prop :=
  ∀ (i : Instr) (s t : State) (cause : FaultCause), s.latch = none → exec i s = .next t → t.latch = some cause →
    t = { s with latch := some cause } ∧
    ((∃ dst areg, i = .lw dst areg ∧ cause = .stackOutOfBounds (s.reg areg) s.pc .load ∧
        ((s.reg areg).toInt < 0 ∨ 8096 ≤ (s.reg areg).toInt)) ∨
     (∃ src areg, i = .sw src areg ∧ cause = .stackOutOfBounds (s.reg areg) s.pc .store ∧
        ((s.reg areg).toInt < 0 ∨ 8096 ≤ (s.reg areg).toInt)))

/-! ### The syscall and default families, the console -/

/-- `ecall code` (44_syscall.md, `ecall`; waiting on an empty stream is decision D18, log entry 17): code 1 appends `a0` to the
output stream; code 5, with a value in the input stream, takes it into `a0`, and is not enabled while the stream is empty; any
other code does nothing; in all three cases the pc steps on and nothing else changes. -/
def Obligations.EcallServesItsCode : Prop :=
  ∀ s : State,
    (∃ t, exec (.ecall 1) s = .next t ∧ t.pc = s.pc + 1 ∧ t.output = s.output ++ [s.reg 10] ∧ t.input = s.input ∧
      SameRegs s t ∧ SameStack s t ∧ SameRun s t) ∧
    (∀ v rest, s.input = v :: rest →
      ∃ t, exec (.ecall 5) s = .next t ∧ t.pc = s.pc + 1 ∧ t.reg 10 = v ∧ t.input = rest ∧ t.output = s.output ∧
        SameRegsBut 10 s t ∧ SameStack s t ∧ SameRun s t) ∧
    (s.input = [] → ∀ t, exec (.ecall 5) s ≠ .next t) ∧
    (∀ code : Word, code ≠ 1 → code ≠ 5 →
      ∃ t, exec (.ecall code) s = .next t ∧ t.pc = s.pc + 1 ∧
        SameRegs s t ∧ SameStack s t ∧ SameConsole s t ∧ SameRun s t)

/-- `nop` completes in every state: no register, no cell, no stream changes and the pc steps on (45_nop.md R130). -/
def Obligations.NopOnlyAdvancesThePc : Prop :=
  ∀ s : State,
    ∃ t, exec .nop s = .next t ∧ t.pc = s.pc + 1 ∧
      SameRegs s t ∧ SameStack s t ∧ SameConsole s t ∧ SameRun s t

/-- The streams along a step (10_state.md section 6): the output only grows, by `a0` and only when the current instruction is
`ecall 1`; the input loses only its first value, into `a0`, and only when the current instruction is `ecall 5` (decisions D17
and D18, log entries 16 and 17). -/
def Obligations.ConsoleChangesOnlyByEcall : Prop :=
  ∀ s t : State, step s = .next t →
    (t.output = s.output ∨ s.current = some (.ecall 1) ∧ t.output = s.output ++ [s.reg 10] ∧ t.input = s.input) ∧
    (t.input = s.input ∨ s.current = some (.ecall 5) ∧ s.input = t.reg 10 :: t.input ∧ t.output = s.output)

/-- A blocked core resumes when the host supplies a value, whatever integer it is: that value is in `a0` after the step and the
stream is empty again (44_syscall.md section on code 5; decision D18, log entry 17). -/
def Obligations.SuppliedInputWakesABlockedCore : Prop :=
  ∀ (s : State) (v : Word), s.Blocked →
    ∃ t, step (s.supplyInput v) = .next t ∧ t.reg 10 = v ∧ t.input = [] ∧ t.pc = s.pc + 1 ∧ SameRegsBut 10 s t

/-- The snapshot is defined exactly when the core is halted, and lists the 29 registers under their names with their values
(00_scope.md R9). -/
def Obligations.SnapshotIsTheRegisterFileOfAHaltedCore : Prop :=
  ∀ s : State, (s.Halted →
      ∃ l, s.snapshot = some l ∧ l.length = 29 ∧ ∀ r : RegName, (r, s.reg r.specifier) ∈ l) ∧
    (¬s.Halted → s.snapshot = none)

/-! ### The token level, the resolver, the label table -/

/-- Agreement of the two levels (30_encoding.md section 3, end): for every instruction the resolver accepts, executing its word
is what the token level says, in every state; and the token level executes nothing the resolver refuses. How tokens are read and
which instructions are refused is decisions D3, D12 to D15 and D23 (log entries 3, 13, 14, 15). -/
def Obligations.ResolvedWordsActAsTheirTokens : Prop :=
  ∀ (t : TokenInstr) (s : State),
    execTokens t s =
      match resolve s.labels t with
      | .ok w => some (exec (decodeWord w) s)
      | .error _ => none

/-- The resolver refuses exactly the instructions with no token or with fewer operand tokens than their mnemonic needs
(decision D14, log entry 14). -/
def Obligations.ResolverRefusesExactlyMissingOperands : Prop :=
  ∀ (lt : LabelTable) (t : TokenInstr),
    (∃ w, resolve lt t = .ok w) ↔
      ∃ op args, t = op :: args ∧ ∀ m, Mnemonic.ofToken? op = some m → m.operandCount ≤ args.length

/-- What the resolver emits is well formed: register specifiers 0 to 28 or 255, targets that are slot indices, syscall codes 0,
1 or 5 (30_encoding.md section 3). -/
def Obligations.ResolverEmitsWellFormedInstructions : Prop :=
  ∀ (lt : LabelTable) (n : Nat) (t : TokenInstr) (w : IWord), LabelTable.wellFormed n lt → 0 < n → n ≤ Config.maxSlots →
    resolve lt t = .ok w → (decodeWord w).wellFormed n = true ∧ (fieldOp w).toNat ≤ 0x0C

/-- The label table: a string is bound to `i` exactly when slot `i` has it as token 0, it begins with `$`, and no later slot
declares it too (30_encoding.md R53). -/
def Obligations.LabelTableKeepsTheLastDeclaration : Prop :=
  ∀ (slots : List TokenInstr) (tok : Token) (i : Nat),
    (buildLabels slots).find tok = some i ↔
      tok.head? = some '$' ∧ (∃ args, slots[i]? = some (tok :: args)) ∧
      ∀ j, i < j → ∀ args, slots[j]? ≠ some (tok :: args)

/-- The table built for `N` slots binds no string twice and its values are in `[0, N)`; a label operand that no slot declares
has target 0 (30_encoding.md section on `Label`; decision D23, log entry 13). -/
def Obligations.BuiltLabelTablesAreWellFormed : Prop :=
  ∀ slots : List TokenInstr,
    LabelTable.wellFormed slots.length (buildLabels slots) ∧
    ∀ tok : Token, (tok.head? ≠ some '$' ∨ ∀ (i : Nat) (args : List Token), slots[i]? ≠ some (tok :: args)) →
      (buildLabels slots).target tok = 0

/-- Loading: the slots are the lines that are no comment, each once and in order; it answers an image exactly when each of them
resolves under their complete table, so forward references work; the table of the image is theirs and slot `i` of the image is
the resolution of slot `i` (30_encoding.md sections 1 and 3; a refused line is decision D14, log entry 14). -/
def Obligations.LoadedImageIsTheResolvedProgram : Prop :=
  slotsOfLines [] = [] ∧
  (∀ (l : TokenInstr) (ls : List TokenInstr),
    ((∃ cs args, l = ('/' :: cs) :: args) → slotsOfLines (l :: ls) = slotsOfLines ls) ∧
    ((∀ cs args, l ≠ ('/' :: cs) :: args) → slotsOfLines (l :: ls) = l :: slotsOfLines ls)) ∧
  ∀ lines : List TokenInstr,
    ((∃ image, loadProgram lines = .ok image) ↔
      ∀ l ∈ slotsOfLines lines, ∃ w, resolve (buildLabels (slotsOfLines lines)) l = .ok w) ∧
    ∀ image : Image, loadProgram lines = .ok image →
      image.labels = buildLabels (slotsOfLines lines) ∧ image.words.length = (slotsOfLines lines).length ∧
      ∀ (i : Nat) (t : TokenInstr), (slotsOfLines lines)[i]? = some t →
        ∃ w, image.words[i]? = some w ∧ resolve image.labels t = .ok w

/-- `Reg`: each of the 29 names resolves to its specifier, different for different registers, and every other token to the
absent register 255 (30_encoding.md section 3; decisions D2 and D13, log entries 2 and 13). -/
def Obligations.RegisterTokensResolve : Prop :=
  (∀ r : RegName, regOfToken r.spelling = r.specifier) ∧
  (∀ r r' : RegName, r.specifier = r'.specifier → r = r') ∧
  ∀ tok : Token, (∀ r : RegName, r.spelling ≠ tok) → regOfToken tok = 255

/-- `ParseInt` reads the decimal text of every 64-bit signed integer back as that integer, with or without a leading `+` for a
non-negative one (30_encoding.md section 3; decisions D12 and D17, log entries 13 and 16). -/
def Obligations.ParseIntReadsDecimalTextBack : Prop :=
  ∀ v : Word, parseInt (renderInt v) = v ∧ (0 ≤ v.toInt → parseInt ('+' :: renderInt v) = v)

/-- `ParseInt` is 0 for every malformed token: every one outside the grammar of 30_encoding.md section 3 (an optional sign, then
decimal digits and nothing else), and every one of the grammar whose value is out of the signed 64-bit range (decision D12, log
entry 13). -/
def Obligations.ParseIntOfMalformedTokensIsZero : Prop :=
  ∀ tok : Token,
    ((∀ v : Int, ¬IsLiteral tok v) → parseInt tok = 0) ∧
    (∀ v : Int, IsLiteral tok v → (v < -(2 ^ 63) ∨ 2 ^ 63 - 1 < v) → parseInt tok = 0)

/-! ### Whole programs -/

/-- Straight-line replay (40_execution_loop.md section on R89, property (a) with its exact conditions): for every program
without control flow, `lw` and `ecall 5` from the pc on, a run that halts ends with the registers got by replaying the `li`,
`add` and `addi` effects in program order (the size bound is decision D22, the wrapping sums D1, the discarded writes D3, log
entries 23, 1 and 3). -/
def Obligations.StraightLineRunsReplayTheirRegisterEffects : Prop :=
  ∀ (fuel : Nat) (s t : State), s.program.length ≤ Config.maxSlots → 0 ≤ s.pc.toInt →
    (∀ w ∈ s.program.drop s.pc.toNat, straightLine (decodeWord w) = true) →
    runFor fuel s = .halted t →
    t.regs.toList = replay s.regs.toList ((s.program.drop s.pc.toNat).map decodeWord) ∧
      (s.pc.toInt ≤ s.program.length → t.pc.toInt = s.program.length)

/-- Forward programs end (40_execution_loop.md section on R89, property (b) with its exact condition, 90_conflicts.md C8): where
every transfer the run takes goes forward and no `ecall 5` blocks, the run comes, within as many steps as the program has slots,
to a normal end with the pc at or past the instruction count (unless it started below 0), or to an abort (the size bound is
decision D22, log entry 23). -/
def Obligations.ForwardProgramsEnd : Prop :=
  ∀ s : State, s.program.length ≤ Config.maxSlots → s.RunGoesForward →
    ∃ t, runFor s.program.length s = .halted t ∧ (0 ≤ s.pc.toInt → (s.program.length : Int) ≤ t.pc.toInt) ∨
      ∃ cause, runFor s.program.length s = .faulted t cause

/-- A program that can be seen from its text to go forward does: where every branch target of every slot lies after the slot and
no slot holds `ret` or `ecall 5`, every run of the program meets the condition of R89 (b) (40_execution_loop.md section on
R89). -/
def Obligations.ForwardTextsRunForward : Prop :=
  ∀ s : State, (∀ (i : Nat) (w : IWord), s.program[i]? = some w → goesForward i (decodeWord w) = true) → s.RunGoesForward

/-- `ParseInt` of a literal is its value: for every token of the grammar of 30_encoding.md section 3 whose value is in the
signed 64-bit range, with any sign and any leading zeros (decision D12, log entry 13). -/
def Obligations.ParseIntOfLiteralsIsTheirValue : Prop :=
  ∀ (tok : Token) (v : Int), IsLiteral tok v → -(2 ^ 63) ≤ v → v ≤ 2 ^ 63 - 1 → (parseInt tok).toInt = v
end

