-- ==== Sys2Proof/Laws/Decode.lean ====
section
/-! SUPPORT. The fields of a made word, that a word is made of its fields, and that it survives its byte image. -/

namespace Sys2Proof

section
variable (op : BitVec 8) (p1 p2 p3 : Specifier) (imm : Word)

/-- Which field a bit of a made word belongs to (30_encoding.md R56). -/
theorem getLsbD_makeWord (k : Nat) :
    (makeWord op p1 p2 p3 imm).getLsbD k =
      if k < 8 then op.getLsbD k else if k < 16 then p1.getLsbD (k - 8) else if k < 24 then p2.getLsbD (k - 16)
      else if k < 32 then p3.getLsbD (k - 24) else imm.getLsbD (k - 32) := by
  change BitVec.getLsbD (w := Config.xlen + 8 + 8 + 8 + 8) (imm ++ p3 ++ p2 ++ p1 ++ op) k = _
  simp only [BitVec.getLsbD_append, Nat.sub_sub]
  repeat' split
  all_goals first | rfl | omega

/-- A slice of a made word that is one field. -/
theorem extractLsb'_makeWord {lo n : Nat} {x : BitVec n}
    (h : ∀ k, k < n → (makeWord op p1 p2 p3 imm).getLsbD (lo + k) = x.getLsbD k) :
    (makeWord op p1 p2 p3 imm).extractLsb' lo n = x :=
  BitVec.eq_of_getLsbD_eq fun k hk => by simpa [BitVec.getLsbD_extractLsb', hk] using h k hk

@[simp] theorem fieldOp_makeWord : fieldOp (makeWord op p1 p2 p3 imm) = op :=
  extractLsb'_makeWord _ _ _ _ _ fun k hk => by simp [getLsbD_makeWord, hk]

@[simp] theorem fieldP1_makeWord : fieldP1 (makeWord op p1 p2 p3 imm) = p1 :=
  extractLsb'_makeWord _ _ _ _ _ fun k hk => by
    simp [getLsbD_makeWord, show 8 + k < 16 by omega]

@[simp] theorem fieldP2_makeWord : fieldP2 (makeWord op p1 p2 p3 imm) = p2 :=
  extractLsb'_makeWord _ _ _ _ _ fun k hk => by
    simp [getLsbD_makeWord, show 16 + k < 24 by omega, show ¬16 + k < 8 by omega]

@[simp] theorem fieldP3_makeWord : fieldP3 (makeWord op p1 p2 p3 imm) = p3 :=
  extractLsb'_makeWord _ _ _ _ _ fun k hk => by
    simp [getLsbD_makeWord, show 24 + k < 32 by omega, show ¬24 + k < 8 by omega, show ¬24 + k < 16 by omega]

@[simp] theorem fieldImm_makeWord : fieldImm (makeWord op p1 p2 p3 imm) = imm :=
  extractLsb'_makeWord _ _ _ _ _ fun k hk => by
    simp [getLsbD_makeWord, show ¬32 + k < 8 by omega, show ¬32 + k < 16 by omega, show ¬32 + k < 24 by omega]

end

/-- A word is the word of its fields. -/
theorem makeWord_fields (w : IWord) : makeWord (fieldOp w) (fieldP1 w) (fieldP2 w) (fieldP3 w) (fieldImm w) = w := by
  unfold makeWord fieldOp fieldP1 fieldP2 fieldP3 fieldImm
  iterate 4 rw [BitVec.extractLsb'_append_extractLsb'_eq_extractLsb' (by rfl)]
  exact BitVec.extractLsb'_eq_self

@[simp] theorem length_wordBytes (w : IWord) : (wordBytes w).length = Config.bytesPerWord := by simp [wordBytes]

/-- Bytes `lo` to `lo + n - 1` of a word make the word with its bits from there on. -/
theorem getLsbD_wordOfBytes (w : IWord) (n lo k : Nat) :
    (wordOfBytes ((List.range' lo n).map fun i => w.extractLsb' (8 * i) 8)).getLsbD k =
      (decide (k < Config.iw) && (decide (k < 8 * n) && w.getLsbD (8 * lo + k))) := by
  induction n generalizing lo k with
  | zero => simp [wordOfBytes]
  | succ n ih =>
    simp only [List.range'_succ, List.map_cons, wordOfBytes, BitVec.getLsbD_or, BitVec.getLsbD_shiftLeft, ih,
      BitVec.getLsbD_setWidth, BitVec.getLsbD_extractLsb']
    by_cases h : k < 8
    · simp [h, show k < 8 * (n + 1) by omega]
    · rw [show 8 * (lo + 1) + (k - 8) = 8 * lo + k by omega]
      by_cases hk : k < Config.iw
      · simp [h, hk, show k - 8 < Config.iw by omega, show (k - 8 < 8 * n) ↔ (k < 8 * (n + 1)) by omega]
      · simp [h, hk]

/-- A word's bytes make the word. -/
theorem wordOfBytes_wordBytes (w : IWord) : wordOfBytes (wordBytes w) = w := by
  refine BitVec.eq_of_getLsbD_eq fun k hk => ?_
  rw [wordBytes, List.range_eq_range', getLsbD_wordOfBytes]
  simp [hk, show 8 * Config.bytesPerWord = Config.iw from rfl]

/-- Taking a word off its own bytes gives it back (30_encoding.md R60). -/
theorem takeWord_wordBytes (w : IWord) (rest : List Byte) : takeWord (wordBytes w ++ rest) = .ok (w, rest) := by
  simp [takeWord, wordOfBytes_wordBytes]

/-- Decoding a word's bytes is decoding the word. -/
theorem decode_wordBytes (w : IWord) (rest : List Byte) : decode (wordBytes w ++ rest) = .ok (decodeWord w, rest) := by
  simp [decode, takeWord_wordBytes]

/-- The decoder of table words decodes the word itself. -/
theorem decodeTableWord_eq {nbits : Nat} (h : nbits ≤ Config.iw) (w : Nat) :
    decodeTableWord nbits w = some (decodeWord (tableWord nbits w)) := by
  have := decode_wordBytes (tableWord nbits w) []
  rw [List.append_nil] at this
  simp [decodeTableWord, h, this]

end Sys2Proof
end

