-- ==== Sys2Proof/Laws/Labels.lean ====
section
/-! SUPPORT. The laws of the label table and of the name tables. -/

namespace Sys2Proof

/-- Finding in a table without a string's entries. -/
theorem LabelTable.find_filter (lt : LabelTable) (tok other : Token) (h : other ≠ tok) :
    LabelTable.find (lt.filter fun e => e.1 != tok) other = LabelTable.find lt other := by
  induction lt with
  | nil => rfl
  | cons e rest ih =>
    obtain ⟨k, i⟩ := e
    by_cases hk : k = tok
    · subst hk
      simp [LabelTable.find, ih, Ne.symm h]
    · by_cases ho : k = other <;> simp [LabelTable.find, ih, hk, ho, h]

/-- A new binding is found, and every other string is found as before (30_encoding.md R53). -/
theorem LabelTable.find_bind (lt : LabelTable) (tok other : Token) (i : Nat) :
    (lt.bind tok i).find other = if other = tok then some i else lt.find other := by
  by_cases h : other = tok
  · simp [LabelTable.bind, LabelTable.find, h]
  · simp [LabelTable.bind, LabelTable.find, h, Ne.symm h, LabelTable.find_filter lt tok other h]

/-- What is found is an entry. -/
theorem LabelTable.mem_of_find {lt : LabelTable} {tok : Token} {i : Nat} (h : lt.find tok = some i) : (tok, i) ∈ lt := by
  induction lt with
  | nil => simp [LabelTable.find] at h
  | cons e rest ih =>
    obtain ⟨k, j⟩ := e
    by_cases hk : k = tok
    · simp [LabelTable.find, hk] at h
      simp [hk, h]
    · simp [LabelTable.find, hk] at h
      simp [ih h]

/-- Every register's spelling names it, and no two registers share one (10_state.md R11). -/
theorem RegName.ofToken?_spelling (r : RegName) : RegName.ofToken? r.spelling = some r := by
  cases r <;> decide

/-- A token names only the register it spells. -/
theorem RegName.spelling_of_ofToken? {tok : Token} {r : RegName} (h : RegName.ofToken? tok = some r) : r.spelling = tok := by
  simpa using List.find?_some h

/-- Every mnemonic's spelling names it (30_encoding.md R66). -/
theorem Mnemonic.ofToken?_spelling (m : Mnemonic) : Mnemonic.ofToken? m.spelling = some m := by
  cases m <;> decide

/-- A token names only the mnemonic it spells. -/
theorem Mnemonic.spelling_of_ofToken? {tok : Token} {m : Mnemonic} (h : Mnemonic.ofToken? tok = some m) : m.spelling = tok := by
  simpa using List.find?_some h

/-- Every register's specifier is a register's number. -/
theorem RegName.specifier_toNat_lt (r : RegName) : r.specifier.toNat < 29 := by
  cases r <;> decide

end Sys2Proof
end

