-- ==== Sys2Proof/Laws/Memory.lean ====
section
/-! SUPPORT. The laws of stack memory as data: read after write, and that every operation keeps the canonical form. -/

namespace Sys2Proof.Machine

/-- A dropped cell reads as unlisted; every other cell as before. -/
theorem Memory.read_erase (m : Memory) (a b : Nat) :
    Memory.read (Memory.erase m a) b = if b = a then Config.stackInit else Memory.read m b := by
  induction m with
  | nil => simp [Memory.erase, Memory.read]
  | cons c rest ih =>
    obtain ⟨k, u⟩ := c
    by_cases hk : k = a
    · subst hk
      have : Memory.erase ((k, u) :: rest) k = Memory.erase rest k := by simp [Memory.erase]
      rw [this, ih]
      by_cases hb : b = k <;> simp [hb, Memory.read]
    · have : Memory.erase ((k, u) :: rest) a = (k, u) :: Memory.erase rest a := by simp [Memory.erase, hk]
      rw [this]
      by_cases hb : b = k
      · simp [Memory.read, hb, hk]
      · simp [Memory.read, hb, ih]

/-- Putting in a cell that is not listed. -/
theorem Memory.read_insert (m : Memory) (a : Nat) (v : Word) (b : Nat) (h : ∀ c ∈ m, c.1 ≠ a) :
    Memory.read (Memory.insert m a v) b = if b = a then v else Memory.read m b := by
  induction m with
  | nil => by_cases hb : b = a <;> simp [Memory.insert, Memory.read, hb]
  | cons c rest ih =>
    obtain ⟨k, u⟩ := c
    have hk : k ≠ a := h (k, u) (by simp)
    have ih := ih fun c hc => h c (by simp [hc])
    unfold Memory.insert
    split
    · by_cases hb : b = a <;> simp [Memory.read, hb]
    · by_cases hb : b = k
      · simp [Memory.read, hb, hk]
      · simp [Memory.read, hb, ih]

/-- No entry of the erased cell is left. -/
theorem Memory.erase_ne (m : Memory) (a : Nat) : ∀ c ∈ Memory.erase m a, c.1 ≠ a := by
  intro c hc
  simpa [Memory.erase] using (List.mem_filter.mp hc).2

/-- A read after a write, of any cell (20_memory.md R37, R42). -/
theorem Memory.read_write (m : Memory) (a : Nat) (v : Word) (b : Nat) :
    Memory.read (Memory.write m a v) b = if b = a then v else Memory.read m b := by
  unfold Memory.write
  split
  · rw [Memory.read_erase]; simp_all
  · rw [Memory.read_insert _ _ _ _ (Memory.erase_ne m a), Memory.read_erase]
    by_cases hb : b = a <;> simp [hb]

@[simp] theorem Memory.read_write_same (m : Memory) (a : Nat) (v : Word) : Memory.read (Memory.write m a v) a = v := by
  simp [Memory.read_write]

theorem Memory.read_write_ne (m : Memory) (v : Word) {a b : Nat} (h : b ≠ a) :
    Memory.read (Memory.write m a v) b = Memory.read m b := by
  simp [Memory.read_write, h]

/-- The members of a list with a cell put in. -/
theorem Memory.mem_insert (m : Memory) (a : Nat) (v : Word) (c : Nat × Word) :
    c ∈ Memory.insert m a v ↔ c = (a, v) ∨ c ∈ m := by
  induction m with
  | nil => simp [Memory.insert]
  | cons d rest ih =>
    obtain ⟨k, u⟩ := d
    unfold Memory.insert
    split
    · simp
    · simp only [List.mem_cons, ih]
      tauto

/-- The empty memory is canonical. -/
theorem Memory.wf_nil : Memory.wf [] := ⟨List.Pairwise.nil, by simp⟩

/-- Dropping a cell keeps the canonical form. -/
theorem Memory.wf_erase {m : Memory} (h : Memory.wf m) (a : Nat) : Memory.wf (Memory.erase m a) :=
  ⟨h.1.filter _, fun c hc => h.2 c (List.mem_filter.mp hc).1⟩

/-- Putting in an unlisted cell of a real index, with a listed content, keeps the canonical form. -/
theorem Memory.wf_insert {m : Memory} (h : Memory.wf m) {a : Nat} {v : Word} (hne : ∀ c ∈ m, c.1 ≠ a)
    (ha : a < Config.stackCells) (hv : v ≠ Config.stackInit) : Memory.wf (Memory.insert m a v) := by
  refine ⟨?_, fun c hc => ?_⟩
  · obtain ⟨hp, -⟩ := h
    induction m with
    | nil => simp [Memory.insert]
    | cons d rest ih =>
      obtain ⟨k, u⟩ := d
      have hk : k ≠ a := hne (k, u) (by simp)
      rw [List.pairwise_cons] at hp
      unfold Memory.insert
      split
      · rename_i hlt
        refine List.Pairwise.cons ?_ (List.Pairwise.cons hp.1 hp.2)
        rintro c hc
        rcases List.mem_cons.mp hc with rfl | hc
        · exact hlt
        · exact Nat.lt_trans hlt (hp.1 c hc)
      · refine List.Pairwise.cons (fun c hc => ?_) (ih (fun c hc => hne c (by simp [hc])) hp.2)
        rcases (Memory.mem_insert _ _ _ _).mp hc with rfl | hc
        · show k < a
          omega
        · exact hp.1 c hc
  · rcases (Memory.mem_insert _ _ _ _).mp hc with rfl | hc
    · exact ⟨ha, hv⟩
    · exact h.2 c hc

/-- A write to a cell that exists keeps the canonical form. -/
theorem Memory.wf_write {m : Memory} (h : Memory.wf m) {a : Nat} (v : Word) (ha : a < Config.stackCells) :
    Memory.wf (Memory.write m a v) := by
  unfold Memory.write
  split
  · exact Memory.wf_erase h a
  · exact Memory.wf_insert (Memory.wf_erase h a) (Memory.erase_ne m a) ha ‹_›

/-- A cell below every listed index is unlisted. -/
theorem Memory.read_of_lt (m : Memory) (a : Nat) (h : ∀ c ∈ m, a < c.1) : Memory.read m a = Config.stackInit := by
  induction m with
  | nil => rfl
  | cons c rest ih =>
    obtain ⟨k, u⟩ := c
    have hk : a ≠ k := Nat.ne_of_lt (h (k, u) (by simp))
    simpa [Memory.read, hk] using ih fun c hc => h c (by simp [hc])

end Sys2Proof.Machine
end

