-- ==== Sys2Proof/Laws/State.lean ====
section
/-! SUPPORT. One lemma per field per update of the state, so that no later proof unfolds an update; and what a register reads
after a register write. -/

namespace Sys2Proof.Machine

variable (s : State) (v : Word) (d : Specifier) (cause : FaultCause)

/-! ### setPc -/
@[simp] theorem State.setPc_regs : (s.setPc v).regs = s.regs := rfl
@[simp] theorem State.setPc_pc : (s.setPc v).pc = v := rfl
@[simp] theorem State.setPc_stack : (s.setPc v).stack = s.stack := rfl
@[simp] theorem State.setPc_latch : (s.setPc v).latch = s.latch := rfl
@[simp] theorem State.setPc_output : (s.setPc v).output = s.output := rfl
@[simp] theorem State.setPc_input : (s.setPc v).input = s.input := rfl
@[simp] theorem State.setPc_program : (s.setPc v).program = s.program := rfl
@[simp] theorem State.setPc_labels : (s.setPc v).labels = s.labels := rfl
@[simp] theorem State.setPc_reg (r : Specifier) : (s.setPc v).reg r = s.reg r := rfl

/-! ### advance -/
@[simp] theorem State.advance_regs : s.advance.regs = s.regs := rfl
@[simp] theorem State.advance_pc : s.advance.pc = s.pc + 1#Config.xlen := rfl
@[simp] theorem State.advance_stack : s.advance.stack = s.stack := rfl
@[simp] theorem State.advance_latch : s.advance.latch = s.latch := rfl
@[simp] theorem State.advance_output : s.advance.output = s.output := rfl
@[simp] theorem State.advance_input : s.advance.input = s.input := rfl
@[simp] theorem State.advance_program : s.advance.program = s.program := rfl
@[simp] theorem State.advance_labels : s.advance.labels = s.labels := rfl
@[simp] theorem State.advance_reg (r : Specifier) : s.advance.reg r = s.reg r := rfl

/-! ### emit -/
@[simp] theorem State.emit_regs : (s.emit v).regs = s.regs := rfl
@[simp] theorem State.emit_pc : (s.emit v).pc = s.pc := rfl
@[simp] theorem State.emit_stack : (s.emit v).stack = s.stack := rfl
@[simp] theorem State.emit_latch : (s.emit v).latch = s.latch := rfl
@[simp] theorem State.emit_output : (s.emit v).output = s.output ++ [v] := rfl
@[simp] theorem State.emit_input : (s.emit v).input = s.input := rfl
@[simp] theorem State.emit_program : (s.emit v).program = s.program := rfl
@[simp] theorem State.emit_labels : (s.emit v).labels = s.labels := rfl
@[simp] theorem State.emit_reg (r : Specifier) : (s.emit v).reg r = s.reg r := rfl

/-! ### supplyInput -/
@[simp] theorem State.supplyInput_regs : (s.supplyInput v).regs = s.regs := rfl
@[simp] theorem State.supplyInput_pc : (s.supplyInput v).pc = s.pc := rfl
@[simp] theorem State.supplyInput_stack : (s.supplyInput v).stack = s.stack := rfl
@[simp] theorem State.supplyInput_latch : (s.supplyInput v).latch = s.latch := rfl
@[simp] theorem State.supplyInput_output : (s.supplyInput v).output = s.output := rfl
@[simp] theorem State.supplyInput_input : (s.supplyInput v).input = s.input ++ [v] := rfl
@[simp] theorem State.supplyInput_program : (s.supplyInput v).program = s.program := rfl
@[simp] theorem State.supplyInput_labels : (s.supplyInput v).labels = s.labels := rfl
@[simp] theorem State.supplyInput_reg (r : Specifier) : (s.supplyInput v).reg r = s.reg r := rfl

/-! ### takeFault -/
@[simp] theorem State.takeFault_regs : (s.takeFault cause).regs = s.regs := rfl
@[simp] theorem State.takeFault_pc : (s.takeFault cause).pc = s.pc := rfl
@[simp] theorem State.takeFault_stack : (s.takeFault cause).stack = s.stack := rfl
@[simp] theorem State.takeFault_latch : (s.takeFault cause).latch = some cause := rfl
@[simp] theorem State.takeFault_output : (s.takeFault cause).output = s.output := rfl
@[simp] theorem State.takeFault_input : (s.takeFault cause).input = s.input := rfl
@[simp] theorem State.takeFault_program : (s.takeFault cause).program = s.program := rfl
@[simp] theorem State.takeFault_labels : (s.takeFault cause).labels = s.labels := rfl
@[simp] theorem State.takeFault_reg (r : Specifier) : (s.takeFault cause).reg r = s.reg r := rfl

/-! ### setReg -/
@[simp] theorem State.setReg_pc : (s.setReg d v).pc = s.pc := by unfold State.setReg; split <;> rfl
@[simp] theorem State.setReg_stack : (s.setReg d v).stack = s.stack := by unfold State.setReg; split <;> rfl
@[simp] theorem State.setReg_latch : (s.setReg d v).latch = s.latch := by unfold State.setReg; split <;> rfl
@[simp] theorem State.setReg_output : (s.setReg d v).output = s.output := by unfold State.setReg; split <;> rfl
@[simp] theorem State.setReg_input : (s.setReg d v).input = s.input := by unfold State.setReg; split <;> rfl
@[simp] theorem State.setReg_program : (s.setReg d v).program = s.program := by unfold State.setReg; split <;> rfl
@[simp] theorem State.setReg_labels : (s.setReg d v).labels = s.labels := by unfold State.setReg; split <;> rfl

/-- The absent register reads 0 (10_state.md R15). -/
theorem State.reg_absent {r : Specifier} (h : 29 ≤ r.toNat) : s.reg r = 0#Config.xlen := by
  simp [State.reg, Nat.not_lt.mpr h]

/-- A write to the absent register changes no state (10_state.md R15). -/
theorem State.setReg_absent {d : Specifier} (h : 29 ≤ d.toNat) : s.setReg d v = s := by
  simp [State.setReg, Nat.not_lt.mpr h]

/-- Every other register reads as before a register write. -/
theorem State.setReg_reg_ne {r d : Specifier} (h : r ≠ d) : (s.setReg d v).reg r = s.reg r := by
  have hne : d.toNat ≠ r.toNat := fun e => h (BitVec.eq_of_toNat_eq e.symm)
  unfold State.setReg
  split
  · simp only [State.reg]
    split
    · exact Vector.getElem_set_ne _ _ hne
    · rfl
  · rfl

/-- The written register reads the value; the absent register still reads 0. -/
theorem State.setReg_reg_same : (s.setReg d v).reg d = if d.toNat < 29 then v else 0#Config.xlen := by
  by_cases h : d.toNat < 29
  · simp [State.setReg, State.reg, h]
  · simp [State.reg, h]

/-- What any register reads after a register write. -/
theorem State.setReg_reg (r : Specifier) :
    (s.setReg d v).reg r = if r = d ∧ d.toNat < 29 then v else s.reg r := by
  by_cases h : r = d
  · subst h
    rw [State.setReg_reg_same]
    by_cases hr : r.toNat < 29
    · simp [hr]
    · simp [hr, State.reg_absent s (Nat.not_lt.mp hr)]
  · simp [h, State.setReg_reg_ne s v h]

/-- Registers that read alike at every specifier are the same register file. -/
theorem State.regs_ext {s t : State} (h : ∀ r, t.reg r = s.reg r) : t.regs = s.regs := by
  refine Vector.ext fun i hi => ?_
  have h := h (BitVec.ofNat 8 i)
  have hmod : (BitVec.ofNat 8 i).toNat = i := by rw [BitVec.toNat_ofNat]; omega
  simpa only [State.reg, hmod, hi, dite_true] using h

/-! ### branchIf -/
@[simp] theorem State.branchIf_regs (c : Bool) : (s.branchIf c v).regs = s.regs := by cases c <;> rfl
@[simp] theorem State.branchIf_pc (c : Bool) : (s.branchIf c v).pc = if c then v else s.pc + 1#Config.xlen := by cases c <;> rfl
@[simp] theorem State.branchIf_stack (c : Bool) : (s.branchIf c v).stack = s.stack := by cases c <;> rfl
@[simp] theorem State.branchIf_latch (c : Bool) : (s.branchIf c v).latch = s.latch := by cases c <;> rfl
@[simp] theorem State.branchIf_output (c : Bool) : (s.branchIf c v).output = s.output := by cases c <;> rfl
@[simp] theorem State.branchIf_input (c : Bool) : (s.branchIf c v).input = s.input := by cases c <;> rfl
@[simp] theorem State.branchIf_program (c : Bool) : (s.branchIf c v).program = s.program := by cases c <;> rfl
@[simp] theorem State.branchIf_labels (c : Bool) : (s.branchIf c v).labels = s.labels := by cases c <;> rfl
@[simp] theorem State.branchIf_reg (c : Bool) (r : Specifier) : (s.branchIf c v).reg r = s.reg r := by cases c <;> rfl

/-- A branch is a change of the pc alone. -/
theorem State.branchIf_eq_setPc (c : Bool) : s.branchIf c v = s.setPc (if c then v else s.pc + 1#Config.xlen) := by cases c <;> rfl

/-- So is going on to the next slot. -/
theorem State.advance_eq_setPc : s.advance = s.setPc (s.pc + 1#Config.xlen) := rfl

end Sys2Proof.Machine
end

