-- ==== Sys2Proof/Laws/Ops.lean ====
section
/-! SUPPORT. What each shared operation over the state can do, said once. -/

namespace Sys2Proof.Machine

/-- The three syscall codes of 44_syscall.md R121 differ, and none is the code of another token. -/
@[simp] theorem code_five_ne_one : ¬(5#Config.xlen = 1#Config.xlen) := by decide
@[simp] theorem code_zero_ne_one : ¬(0#Config.xlen = 1#Config.xlen) := by decide
@[simp] theorem code_zero_ne_five : ¬(0#Config.xlen = 5#Config.xlen) := by decide

/-- The range of a signed value. -/
theorem toInt_bounds (a : Word) : -(2 ^ 63) ≤ a.toInt ∧ a.toInt ≤ 2 ^ 63 - 1 :=
  ⟨BitVec.le_toInt a, Int.le_sub_one_of_lt (BitVec.toInt_lt (x := a))⟩

/-- The signed value of a sum (41_arithmetic.md R94). Stated at the width itself, since `omega` does not look into
`Config.xlen`. -/
theorem toInt_add_eq_64 (a b : BitVec 64) : (a + b).toInt = (a.toInt + b.toInt + 2 ^ 63) % 2 ^ 64 - 2 ^ 63 := by
  rw [BitVec.toInt_add, Int.bmod_def]
  omega

theorem toInt_add_eq (a b : Word) : (a + b).toInt = (a.toInt + b.toInt + 2 ^ 63) % 2 ^ 64 - 2 ^ 63 := toInt_add_eq_64 a b

/-- Below the top the next pc is one more as a signed value (10_state.md R20). -/
theorem toInt_add_one {a : Word} (h : a.toInt < 2 ^ 63 - 1) : (a + 1#Config.xlen).toInt = a.toInt + 1 := by
  have := toInt_bounds a
  rw [toInt_add_eq, show (1#Config.xlen).toInt = 1 from rfl]
  omega

/-- The bounds test says what 20_memory.md R33 says. -/
theorem inBounds_iff (a : Word) : inBounds a = true ↔ 0 ≤ a.toInt ∧ a.toInt < 8096 := by
  simp [inBounds]

theorem inBounds_false_iff (a : Word) : inBounds a = false ↔ a.toInt < 0 ∨ 8096 ≤ a.toInt := by
  rw [← Bool.not_eq_true, inBounds_iff]
  omega

/-- A non-negative signed value is the unsigned one. -/
theorem toNat_of_toInt_nonneg {a : Word} (h : 0 ≤ a.toInt) : (a.toNat : Int) = a.toInt := by
  have := BitVec.toInt_eq_toNat_cond a
  have hlt := a.isLt
  split at this <;> omega

/-- An address within bounds is a cell index. -/
theorem toNat_lt_of_inBounds {a : Word} (h : inBounds a = true) : a.toNat < Config.stackCells := by
  have h := (inBounds_iff a).mp h
  have := toNat_of_toInt_nonneg h.1
  show a.toNat < 8096
  omega

variable (s : State)

theorem State.memRead_ok {a : Word} (h : inBounds a = true) : s.memRead a = .ok (s.stack.read a.toNat) := by
  simp [State.memRead, h]

theorem State.memRead_error {a : Word} (h : inBounds a = false) :
    s.memRead a = .error (.stackOutOfBounds a s.pc .load) := by
  simp [State.memRead, h]

theorem State.memWrite_ok {a : Word} (v : Word) (h : inBounds a = true) :
    s.memWrite a v = .ok { s with stack := s.stack.write a.toNat v } := by
  simp [State.memWrite, h]

theorem State.memWrite_error {a : Word} (v : Word) (h : inBounds a = false) :
    s.memWrite a v = .error (.stackOutOfBounds a s.pc .store) := by
  simp [State.memWrite, h]

@[simp] theorem State.complete_ok (t : State) : s.complete (.ok t) = .next t.advance := rfl

@[simp] theorem State.complete_error (cause : FaultCause) : s.complete (.error cause) = .next (s.takeFault cause) := rfl

/-- The pc test says what 40_execution_loop.md R82 says. -/
theorem State.inProgram_iff : s.inProgram = true ↔ 0 ≤ s.pc.toInt ∧ s.pc.toInt < s.program.length := by
  simp [State.inProgram]

theorem State.inProgram_false_iff : s.inProgram = false ↔ s.pc.toInt < 0 ∨ (s.program.length : Int) ≤ s.pc.toInt := by
  rw [← Bool.not_eq_true, State.inProgram_iff]
  omega

/-- A pc within the program names a slot. -/
theorem State.toNat_lt_of_inProgram {s : State} (h : s.inProgram = true) : s.pc.toNat < s.program.length := by
  have h := s.inProgram_iff.mp h
  have := toNat_of_toInt_nonneg h.1
  omega

/-- Fetch reads the slot the pc names. -/
theorem State.fetch_eq_some_iff {w : IWord} :
    s.fetch = some w ↔ s.inProgram = true ∧ s.program[s.pc.toNat]? = some w := by
  unfold State.fetch
  split <;> simp_all

/-- Fetch finds nothing exactly when the pc is outside the program. -/
theorem State.fetch_eq_none_iff : s.fetch = none ↔ s.inProgram = false := by
  unfold State.fetch
  split
  · rename_i h
    have := State.toNat_lt_of_inProgram h
    simp_all
  · simp_all

/-- Where `placeWord` puts a word, fetch finds it, with the latch clear. -/
theorem State.placeWord_fetch (w : IWord) : (s.placeWord w).fetch = some w ∧ (s.placeWord w).latch = none := by
  unfold State.placeWord
  split
  · rename_i h
    have hlt := State.toNat_lt_of_inProgram h
    refine ⟨?_, rfl⟩
    rw [State.fetch_eq_some_iff]
    refine ⟨?_, by simp [hlt]⟩
    simpa [State.inProgram] using h
  · exact ⟨by simp [State.fetch, State.inProgram], rfl⟩

end Sys2Proof.Machine
end

