-- ==== Sys2Proof/Laws/PerInstr.lean ====
section
/-! SUPPORT. A law of every instruction as syntax: its word carries its `op` byte and has 0 in every field its format does not
use (30_encoding.md R57, R59). -/

namespace Sys2Proof.Laws.UnusedFieldsZero

/-- The word of `i` has its `op` byte, an `op` value of the map R69, and 0 in each unused field. -/
def Statement (i : Instr) : Prop :=
  fieldOp (encode i) = opByte i ∧ (opByte i).toNat ≤ 0x0C ∧
    ((fieldUse (opByte i)).p1 = false → fieldP1 (encode i) = 0) ∧
    ((fieldUse (opByte i)).p2 = false → fieldP2 (encode i) = 0) ∧
    ((fieldUse (opByte i)).p3 = false → fieldP3 (encode i) = 0) ∧
    ((fieldUse (opByte i)).imm = false → fieldImm (encode i) = 0)

theorem nop : Statement .nop := by simp [Statement, encode, opByte, fieldUse]
theorem li (dst : Specifier) (imm : Word) : Statement (.li dst imm) := by simp [Statement, encode, opByte, fieldUse]
theorem add (dst src1 src2 : Specifier) : Statement (.add dst src1 src2) := by simp [Statement, encode, opByte, fieldUse]
theorem addi (dst src : Specifier) (imm : Word) : Statement (.addi dst src imm) := by simp [Statement, encode, opByte, fieldUse]
theorem b (target : Word) : Statement (.b target) := by simp [Statement, encode, opByte, fieldUse]
theorem beq (r1 r2 : Specifier) (target : Word) : Statement (.beq r1 r2 target) := by simp [Statement, encode, opByte, fieldUse]
theorem bgt (r1 r2 : Specifier) (target : Word) : Statement (.bgt r1 r2 target) := by simp [Statement, encode, opByte, fieldUse]
theorem ble (r1 r2 : Specifier) (target : Word) : Statement (.ble r1 r2 target) := by simp [Statement, encode, opByte, fieldUse]
theorem jal (target : Word) : Statement (.jal target) := by simp [Statement, encode, opByte, fieldUse]
theorem ret : Statement .ret := by simp [Statement, encode, opByte, fieldUse]
theorem sw (src addrReg : Specifier) : Statement (.sw src addrReg) := by simp [Statement, encode, opByte, fieldUse]
theorem lw (dst addrReg : Specifier) : Statement (.lw dst addrReg) := by simp [Statement, encode, opByte, fieldUse]
theorem ecall (code : Word) : Statement (.ecall code) := by simp [Statement, encode, opByte, fieldUse]

end Sys2Proof.Laws.UnusedFieldsZero
end

