-- ==== Sys2Proof/Laws/Step.lean ====
section
/-! SUPPORT. What a step can do, said once: the inversion of `step`, and the shapes of a next state that `exec` can answer. -/

namespace Sys2Proof.Machine

/-- A step that answers a next state ran the fetched instruction with no fault latched (40_execution_loop.md R82). -/
theorem step_next_cases {s t : State} (h : step s = .next t) :
    s.latch = none ∧ ∃ w, s.fetch = some w ∧ exec (decodeWord w) s = .next t := by
  unfold step at h
  split at h
  · cases h
  · rename_i hl
    split at h
    · cases h
    · rename_i w hw
      exact ⟨hl, w, hw, h⟩

/-- With no fault latched, a step is the fetched instruction's meaning. -/
theorem step_of_fetch {s : State} {w : IWord} (hl : s.latch = none) (hw : s.fetch = some w) :
    step s = exec (decodeWord w) s := by
  simp [step, hl, hw]

/-- The host's placed word is what the next step runs (log entry 10). -/
theorem step_withFetchWord (s : State) (nbits w : Nat) :
    step (s.withFetchWord nbits w) = exec (decodeWord (tableWord nbits w)) (s.withFetchWord nbits w) :=
  step_of_fetch (s.placeWord_fetch _).2 (s.placeWord_fetch _).1

/-- The shapes of the next state an instruction can answer: it moves the pc, writes one register and moves the pc, stores one
cell, prints, reads one input, or takes a fault. -/
inductive Effect (i : Instr) (s : State) : State → Prop where
  | move (target : Word) : Effect i s (s.setPc target)
  | write (d : Specifier) (v target : Word) : Effect i s ((s.setReg d v).setPc target)
  | store (src areg : Specifier) (h : i = .sw src areg) (hb : inBounds (s.reg areg) = true) :
      Effect i s { s with stack := s.stack.write (s.reg areg).toNat (s.reg src), pc := s.pc + 1#Config.xlen }
  | print (h : i = .ecall 1#Config.xlen) : Effect i s (s.emit (s.reg regA0)).advance
  | read (v : Word) (rest : List Word) (h : i = .ecall 5#Config.xlen) (hi : s.input = v :: rest) :
      Effect i s (({ s with input := rest } : State).setReg regA0 v).advance
  | faultStore (src areg : Specifier) (h : i = .sw src areg) (hb : inBounds (s.reg areg) = false) :
      Effect i s (s.takeFault (.stackOutOfBounds (s.reg areg) s.pc .store))
  | faultLoad (dst areg : Specifier) (h : i = .lw dst areg) (hb : inBounds (s.reg areg) = false) :
      Effect i s (s.takeFault (.stackOutOfBounds (s.reg areg) s.pc .load))

/-- Every next state has one of the shapes. -/
theorem exec_next_effect {i : Instr} {s t : State} (h : exec i s = .next t) : Effect i s t := by
  cases i with
  | nop => cases h; exact .move _
  | li dst imm => cases h; exact .write _ _ _
  | add dst src1 src2 => cases h; exact .write _ _ _
  | addi dst src imm => cases h; exact .write _ _ _
  | b target => cases h; exact .move _
  | beq r1 r2 target => cases h; rw [State.branchIf_eq_setPc]; exact .move _
  | bgt r1 r2 target => cases h; rw [State.branchIf_eq_setPc]; exact .move _
  | ble r1 r2 target => cases h; rw [State.branchIf_eq_setPc]; exact .move _
  | jal target => cases h; exact .write _ _ _
  | ret => cases h; exact .move _
  | sw src areg =>
    change execSw src areg s = _ at h
    unfold execSw at h
    cases hb : inBounds (s.reg areg) with
    | true => rw [State.memWrite_ok s _ hb] at h; cases h; exact .store src areg rfl hb
    | false => rw [State.memWrite_error s _ hb] at h; cases h; exact .faultStore src areg rfl hb
  | lw dst areg =>
    change execLw dst areg s = _ at h
    unfold execLw at h
    cases hb : inBounds (s.reg areg) with
    | true => rw [State.memRead_ok s hb] at h; cases h; exact .write _ _ _
    | false => rw [State.memRead_error s hb] at h; cases h; exact .faultLoad dst areg rfl hb
  | ecall code =>
    change execEcall code s = _ at h
    unfold execEcall at h
    split at h
    · subst code; cases h; exact .print rfl
    · split at h
      · subst code
        unfold readInteger State.takeInput at h
        cases hi : s.input with
        | nil => simp [hi] at h
        | cons v rest => simp only [hi] at h; cases h; exact .read v rest rfl hi
      · cases h; exact .move _

/-- The one instruction with no next state is `ecall 5` on an empty stream (44_syscall.md R123). -/
theorem exec_next_or_blocked (i : Instr) (s : State) :
    (∃ t, exec i s = .next t) ∨ i = .ecall 5#Config.xlen ∧ s.input = [] ∧ exec i s = .fault .blockedOnInput := by
  cases i with
  | sw src areg =>
    show (∃ t, execSw src areg s = _) ∨ _
    cases h : s.memWrite (s.reg areg) (s.reg src) <;> exact .inl ⟨_, by rw [execSw, h]; rfl⟩
  | lw dst areg =>
    show (∃ t, execLw dst areg s = _) ∨ _
    cases h : s.memRead (s.reg areg) <;> exact .inl ⟨_, by rw [execLw, h]; rfl⟩
  | ecall code =>
    by_cases h1 : code = 1#Config.xlen
    · exact .inl ⟨_, if_pos h1⟩
    · by_cases h5 : code = 5#Config.xlen
      · subst h5
        cases hi : s.input with
        | nil => exact .inr ⟨rfl, rfl, by simp [exec, execEcall, readInteger, State.takeInput, hi]⟩
        | cons v rest => exact .inl ⟨_, by simp [exec, execEcall, readInteger, State.takeInput, hi]; rfl⟩
      · exact .inl ⟨_, by simp [exec, execEcall, h1, h5]; rfl⟩
  | _ => exact .inl ⟨_, rfl⟩

/-! ### Runs -/

/-- One more step of a run of any machine. -/
theorem run_succ (M : Host.Core) (k : Nat) (s : M.State) :
    M.run (k + 1) s =
      match M.step s with
      | .next t => M.run k t
      | .fault r => .fault r
      | .refused r => .refused r := by
  cases h : M.step s <;> simp only [Host.Core.run, h]

theorem run_zero (s : State) : Host.Core.run core 0 s = .next s := rfl

/-- A run goes on from the next state. -/
theorem run_succ_of_next {s t : State} (h : step s = .next t) (k : Nat) :
    Host.Core.run core (k + 1) s = Host.Core.run core k t := by
  have hs : core.step s = .next t := h
  have e := run_succ core k s
  rw [hs] at e
  exact e

/-- A run stops at the first fault. -/
theorem run_succ_of_fault {s : State} {f : Fault} (h : step s = .fault f) (k : Nat) :
    Host.Core.run core (k + 1) s = .fault f := by
  have hs : core.step s = .fault f := h
  have e := run_succ core k s
  rw [hs] at e
  exact e

/-- A run that answers a next state after a step took that step. -/
theorem run_succ_next_cases {s t : State} {k : Nat} (h : Host.Core.run core (k + 1) s = .next t) :
    ∃ u, step s = .next u ∧ Host.Core.run core k u = .next t := by
  cases hs : step s with
  | next u => exact ⟨u, rfl, run_succ_of_next hs k ▸ h⟩
  | fault f => rw [run_succ_of_fault hs k] at h; cases h
  | refused r =>
    have hs : core.step s = .refused r := hs
    have e := run_succ core k s
    rw [hs] at e
    cases e.symm.trans h

end Sys2Proof.Machine
end

