-- ==== Sys2Proof/Laws/Run.lean ====
section
/-! SUPPORT. What a run under fuel does, said once. -/

namespace Sys2Proof.Machine

variable {s t : State} {fuel : Nat}

/-- Where an instruction that takes no fault leaves the pc: at the target of the transfer it takes, else at pc + 1
(10_state.md R19). -/
theorem exec_pc {i : Instr} (h : exec i s = .next t) (ht : t.latch = none) :
    t.pc = (takenTarget? i s).getD (s.pc + 1#Config.xlen) := by
  cases i with
  | sw src areg =>
    change execSw src areg s = _ at h
    cases hb : inBounds (s.reg areg) with
    | true => rw [execSw, State.memWrite_ok s _ hb] at h; cases h; rfl
    | false => rw [execSw, State.memWrite_error s _ hb] at h; cases h; cases ht
  | lw dst areg =>
    change execLw dst areg s = _ at h
    cases hb : inBounds (s.reg areg) with
    | true => rw [execLw, State.memRead_ok s hb] at h; cases h; simp [takenTarget?]
    | false => rw [execLw, State.memRead_error s hb] at h; cases h; cases ht
  | ecall code =>
    change execEcall code s = _ at h
    unfold execEcall printInteger readInteger at h
    split at h
    · cases h; rfl
    · split at h
      · unfold State.takeInput at h
        cases hi : s.input with
        | nil => rw [hi] at h; cases h
        | cons v rest => rw [hi] at h; cases h; simp [takenTarget?]
      · cases h; rfl
  | beq r1 r2 target => cases h; simp only [State.branchIf_pc, testEq, takenTarget?, decide_eq_true_eq]; split <;> rfl
  | bgt r1 r2 target => cases h; simp only [State.branchIf_pc, testGt, takenTarget?, decide_eq_true_eq, gt_iff_lt]; split <;> rfl
  | ble r1 r2 target => cases h; simp only [State.branchIf_pc, testLe, takenTarget?, decide_eq_true_eq]; split <;> rfl
  | li dst imm => cases h; simp [takenTarget?]
  | add dst src1 src2 => cases h; simp [takenTarget?]
  | addi dst src imm => cases h; simp [takenTarget?]
  | _ => cases h; rfl

/-- What `RunGoesForward` says of the state itself, and that a step keeps it. -/
theorem State.RunGoesForward.here (h : s.RunGoesForward) (hl : s.latch = none) :
    (∀ i target, s.current = some i → takenTarget? i s = some target → s.pc.toInt < target.toInt) ∧ ¬s.Blocked :=
  h 0 s rfl hl

theorem State.RunGoesForward.next (h : s.RunGoesForward) (hs : step s = .next t) : t.RunGoesForward :=
  fun k u hu => h (k + 1) u ((run_succ_of_next hs k).trans hu)

/-- A state goes forward if its own step does and the state after it does. -/
theorem State.RunGoesForward.of_step
    (here : s.latch = none →
      (∀ i target, s.current = some i → takenTarget? i s = some target → s.pc.toInt < target.toInt) ∧ ¬s.Blocked)
    (next : ∀ t, step s = .next t → t.RunGoesForward) : s.RunGoesForward := by
  intro k u hu
  cases k with
  | zero => cases hu; exact here
  | succ k =>
    obtain ⟨t, ht, hu⟩ := run_succ_next_cases hu
    exact next t ht k u hu

/-- A latched fault ends a run, whatever the fuel. -/
theorem runFor_latched {cause : FaultCause} (h : s.latch = some cause) : runFor fuel s = .faulted s cause := by
  rw [runFor.eq_def]
  simp [h]

/-- A pc outside the program ends a run, whatever the fuel. -/
theorem runFor_halted (hl : s.latch = none) (hp : s.inProgram = false) : runFor fuel s = .halted s := by
  rw [runFor.eq_def]
  simp [hl, hp]

/-- Within the program with no fuel left, the run did not finish. -/
theorem runFor_zero (hl : s.latch = none) (hp : s.inProgram = true) : runFor 0 s = .didNotFinish s := by
  rw [runFor.eq_def]
  simp [hl, hp]

/-- A step that answers a next state is taken. -/
theorem runFor_succ (h : step s = .next t) : runFor (fuel + 1) s = runFor fuel t := by
  obtain ⟨hl, w, hw, -⟩ := step_next_cases h
  have hp := (s.fetch_eq_some_iff.mp hw).1
  rw [runFor.eq_def]
  simp [hl, hp, h]

/-- A run that halts has halted already, or takes a step and halts with less fuel. -/
theorem runFor_halted_cases (h : runFor fuel s = .halted t) :
    s.latch = none ∧ (s.inProgram = false ∧ t = s ∨
      s.inProgram = true ∧ ∃ k u, fuel = k + 1 ∧ step s = .next u ∧ runFor k u = .halted t) := by
  cases hl : s.latch with
  | some cause => rw [runFor_latched hl] at h; cases h
  | none =>
    refine ⟨rfl, ?_⟩
    cases hp : s.inProgram with
    | false => rw [runFor_halted hl hp] at h; cases h; exact .inl ⟨rfl, rfl⟩
    | true =>
      cases fuel with
      | zero => rw [runFor_zero hl hp] at h; cases h
      | succ k =>
        cases hs : step s with
        | next u => exact .inr ⟨rfl, k, u, rfl, rfl, runFor_succ hs ▸ h⟩
        | fault f => rw [runFor.eq_def] at h; simp [hl, hp, hs] at h
        | refused r => rw [runFor.eq_def] at h; simp [hl, hp, hs] at h

end Sys2Proof.Machine
end

