-- ==== Sys2Proof/Tests/Slice0.lean ====
section
/-! SUPPORT. The model's own tests: words and vectors of spec/95_test_vectors.md (the id of a vector stands in its comment), the
smoke tests of WellFormed, and for every statement with hypotheses a witness that meets them. -/

namespace Sys2Proof.Tests

open Sys2Proof.Machine

/-- A running state of a program: reset values, no fault latched. -/
def running (program : List IWord) : State := { State.reset with latch := none, program := program }

/-- The next state of a result, if it is one. -/
def next? : Result → Option State
  | .next t => some t
  | _ => none

/-- The fault of a result, if it is one. -/
def fault? : Result → Option Fault
  | .fault f => some f
  | _ => none

/-! ### Decoding: words written out from 30_encoding.md R56, R57, R69 -/

/-- Default family: op 00000000. -/
theorem test_decode_nop : decodeWord 0x000000000000000000000000#96 = .nop := by decide

/-- Arithmetic family, bit by bit (R57 W-RI): imm 5, p3 0, p2 0, p1 00000011 (t0), op 00000001. -/
theorem test_decode_li :
    decodeWord (0b0000000000000000000000000000000000000000000000000000000000000101#64 ++ 0b00000000#8 ++ 0b00000000#8 ++
      0b00000011#8 ++ 0b00000001#8) = .li RegName.t0.specifier 5#64 := by decide

/-- A10: `add s11 a6 t6`. -/
theorem test_decode_add :
    decodeWord 0x000000000000000009101C02#96 = .add RegName.s11.specifier RegName.a6.specifier RegName.t6.specifier := by decide

/-- A18: `addi sp sp 4000000000`. -/
theorem test_decode_addi :
    decodeWord 0x00000000EE6B280000020203#96 = .addi RegName.sp.specifier RegName.sp.specifier 4000000000#64 := by decide

/-- B2: `b $f`. -/
theorem test_decode_b : decodeWord 0x000000000000000900000004#96 = .b 9#64 := by decide

/-- Branch family, bit by bit (R57 W-RRL): imm 9, p3 0, p2 00000101 (t2), p1 00000100 (t1), op 00000101. -/
theorem test_decode_beq :
    decodeWord (0b0000000000000000000000000000000000000000000000000000000000001001#64 ++ 0b00000000#8 ++ 0b00000101#8 ++
      0b00000100#8 ++ 0b00000101#8) = .beq RegName.t1.specifier RegName.t2.specifier 9#64 := by decide

/-- B7: `bgt t0 t1 $f`. -/
theorem test_decode_bgt :
    decodeWord 0x000000000000000900040306#96 = .bgt RegName.t0.specifier RegName.t1.specifier 9#64 := by decide

/-- B11: `ble t6 a6 $main`. -/
theorem test_decode_ble :
    decodeWord 0x000000000000000000100907#96 = .ble RegName.t6.specifier RegName.a6.specifier 0#64 := by decide

/-- B13: `jal $f`. -/
theorem test_decode_jal : decodeWord 0x000000000000000900000008#96 = .jal 9#64 := by decide

/-- B15: `ret`. -/
theorem test_decode_ret : decodeWord 0x000000000000000000000009#96 = .ret := by decide

/-- Memory family, bit by bit (R57 W-RR): imm 0, p3 0, p2 00010001 (s0), p1 00010000 (a6), op 00001010. -/
theorem test_decode_sw :
    decodeWord (0b0000000000000000000000000000000000000000000000000000000000000000#64 ++ 0b00000000#8 ++ 0b00010001#8 ++
      0b00010000#8 ++ 0b00001010#8) = .sw RegName.a6.specifier RegName.s0.specifier := by decide

/-- M2: `lw a0 s0`. -/
theorem test_decode_lw : decodeWord 0x000000000000000000110A0B#96 = .lw RegName.a0.specifier RegName.s0.specifier := by decide

/-- Syscall family, bit by bit (R57 W-C): imm 5, the rest 0, op 00001100. -/
theorem test_decode_ecall :
    decodeWord (0b0000000000000000000000000000000000000000000000000000000000000101#64 ++ 0b00000000#8 ++ 0b00000000#8 ++
      0b00000000#8 ++ 0b00001100#8) = .ecall 5#64 := by decide

/-- Z5, Z6: a reserved `op` is the no-op; unused fields of `li` are ignored. -/
theorem test_decode_reserved_and_unused :
    decodeWord 0x123456789ABCDEF0112233FF#96 = .nop ∧ decodeWord 0x0000000000000005AABB0301#96 = .li RegName.t0.specifier 5#64 := by
  decide

/-- R60: `li t0 5` as 12 bytes, `op` first; a short list is rejected by name. -/
theorem test_decode_bytes :
    decode [0x01#8, 0x03#8, 0#8, 0#8, 5#8, 0#8, 0#8, 0#8, 0#8, 0#8, 0#8, 0#8] = .ok (.li RegName.t0.specifier 5#64, []) ∧
      decode [0x01#8, 0x03#8] = .error (.truncatedWord 2) := by
  decide

/-- A1: the word of `li t0 -1`; the table's numbering of a row's word. -/
theorem test_encode_and_table :
    encode (.li RegName.t0.specifier (-1)) = 0xFFFFFFFFFFFFFFFF00000301#96 ∧ decodeTableWord 96 0x0B = some (.lw 0#8 0#8) := by
  decide

/-! ### WellFormed: each check refuses an ill-formed term -/

theorem test_wf_specifier : specifierOk 28#8 = true ∧ specifierOk 255#8 = true ∧ specifierOk 29#8 = false := by decide
theorem test_wf_target : targetOk 5 4#64 = true ∧ targetOk 5 5#64 = false ∧ targetOk 5 (-1) = false := by decide
theorem test_wf_code : codeOk 5#64 = true ∧ codeOk 10#64 = false := by decide
theorem test_wf_instr :
    (Instr.add 3#8 4#8 255#8).wellFormed 5 = true ∧ (Instr.add 3#8 100#8 4#8).wellFormed 5 = false ∧
      (Instr.beq 3#8 4#8 7#64).wellFormed 5 = false ∧ (Instr.ecall 93#64).wellFormed 5 = false := by decide
theorem test_wf_labels :
    ¬LabelTable.wellFormed 1 [("$a".toList, 1)] ∧ ¬LabelTable.wellFormed 9 [("$a".toList, 1), ("$a".toList, 2)] := by decide
theorem test_wf_size : programSizeOk (2 ^ 63 - 1) = true ∧ programSizeOk (2 ^ 63) = false := by decide

/-- R5: the words have the widths of the parameters. -/
theorem test_widths : Word = BitVec Config.xlen ∧ IWord = BitVec Config.iw := ⟨rfl, rfl⟩

/-! ### Reset -/

/-- R161: `State.reset` is the reset with nothing loaded under the default policy. -/
theorem test_reset_is_empty_reset :
    State.reset = State.resetWith Config.entryMissingPolicy { words := [], labels := [] } [] := by decide

/-- V8: without `$main` the policy decides. -/
theorem test_reset_start_at_0 : (State.resetWith .startAt0 { words := [0#96], labels := [] } []).latch = none := by decide

/-- R29: a second run starts from the same program anew. -/
theorem test_restart : ((running [0#96]).setReg 3 7).restart [1#64] =
    State.resetWith Config.entryMissingPolicy { words := [0#96], labels := [] } [1#64] := by decide

/-- The host's word is what the next step runs, from reset: A1. -/
theorem test_withFetchWord :
    (next? (step (State.reset.withFetchWord 96 0xFFFFFFFFFFFFFFFF00000301))).map (fun t => (t.reg 3, t.pc)) = some (-1, 1) := by
  decide

/-- Every row's word, operand fields 0, is decoded and runs as the first instruction. -/
theorem test_every_row_runs : (List.range 13).all (fun w =>
    (next? (step (State.reset.withFetchWord 96 w))).isSome && (decodeTableWord 96 w).isSome) = true := by decide

/-! ### The instructions, one step each -/

/-- Z1. -/
theorem test_nop : next? (exec .nop (running [])) = some { running [] with pc := 1 } := by decide

/-- A3, and A8: the absent register takes nothing. -/
theorem test_li : (next? (exec (.li 6 0x8000000000000000#64) (running []))).map (·.reg 6) = some 0x8000000000000000#64 := by decide
theorem test_li_absent : next? (exec (.li 255 5) (running [])) = some { running [] with pc := 1 } := by decide

/-- A9: `zero` is an ordinary register. -/
theorem test_li_zero : (next? (exec (.li 0 4) (running []))).map (·.reg 0) = some 4 := by decide

/-- A11: the sources are read before the destination is written; A12: the sum wraps. -/
theorem test_add_same : (next? (exec (.add 3 3 3) ((running []).setReg 3 21))).map (·.reg 3) = some 42 := by decide
theorem test_add_wraps :
    (next? (exec (.add 3 3 4) (((running []).setReg 3 0x7FFFFFFFFFFFFFFF#64).setReg 4 1))).map (·.reg 3) =
      some 0x8000000000000000#64 := by decide

/-- A15: an absent source is 0. -/
theorem test_add_absent_source : (next? (exec (.add 8 255 5) ((running []).setReg 5 7))).map (·.reg 8) = some 7 := by decide

/-- A17, A19. -/
theorem test_addi : (next? (exec (.addi 3 3 (-1)) (running []))).map (·.reg 3) = some (-1) := by decide
theorem test_addi_wraps :
    (next? (exec (.addi 4 4 1) ((running []).setReg 4 0x7FFFFFFFFFFFFFFF#64))).map (·.reg 4) = some 0x8000000000000000#64 := by decide

/-- The branch vectors stand at slot 20. -/
def atSlot20 : State := { running [] with pc := 20 }

/-- B2. -/
theorem test_b : (next? (exec (.b 9) atSlot20)).map (·.pc) = some 9 := by decide

/-- B4, B5. -/
theorem test_beq :
    (next? (exec (.beq 4 5 9) ((atSlot20.setReg 4 2).setReg 5 2))).map (·.pc) = some 9 ∧
      (next? (exec (.beq 4 5 9) ((atSlot20.setReg 4 1).setReg 5 2))).map (·.pc) = some 21 := by decide

/-- B8, B9: equal and signed. -/
theorem test_bgt :
    (next? (exec (.bgt 3 4 9) ((atSlot20.setReg 3 2).setReg 4 2))).map (·.pc) = some 21 ∧
      (next? (exec (.bgt 3 4 9) ((atSlot20.setReg 3 (-1)).setReg 4 1))).map (·.pc) = some 21 := by decide

/-- B10: no overflow in the comparison. -/
theorem test_bgt_extremes :
    (next? (exec (.bgt 3 4 9) ((atSlot20.setReg 3 0x7FFFFFFFFFFFFFFF#64).setReg 4 0x8000000000000000#64))).map (·.pc) =
      some 9 := by decide

/-- B11, B12. -/
theorem test_ble :
    (next? (exec (.ble 9 16 0) ((atSlot20.setReg 9 5).setReg 16 5))).map (·.pc) = some 0 ∧
      (next? (exec (.ble 9 16 0) ((atSlot20.setReg 9 6).setReg 16 5))).map (·.pc) = some 21 := by decide

/-- B13. -/
theorem test_jal : (next? (exec (.jal 9) (atSlot20.setReg 1 77))).map (fun t => (t.pc, t.reg 1)) = some (9, 20) := by decide

/-- B15, B19: `ret` wraps. -/
theorem test_ret : (next? (exec .ret (atSlot20.setReg 1 20))).map (·.pc) = some 21 := by decide
theorem test_ret_wraps :
    (next? (exec .ret (atSlot20.setReg 1 0x7FFFFFFFFFFFFFFF#64))).map (·.pc) = some 0x8000000000000000#64 := by decide

/-- M4: the last cell; M6: one past it. -/
theorem test_sw_last_cell :
    (next? (exec (.sw 3 3) ((running []).setReg 3 8095))).map (fun t => (t.stack.read 8095, t.latch)) = some (8095, none) := by decide
theorem test_sw_out_of_bounds :
    next? (exec (.sw 4 3) ((atSlot20.setReg 3 8096).setReg 4 6)) =
      some { (atSlot20.setReg 3 8096).setReg 4 6 with latch := some (.stackOutOfBounds 8096 20 .store) } := by decide

/-- R141: the codes. -/
theorem test_fault_codes : State.reset.faultCode = 1 ∧ (running []).faultCode = 0 ∧
    (next? (exec (.sw 4 3) ((running []).setReg 3 8096))).map (·.faultCode) = some 2 := by decide

/-- M2; M9: an absent destination still faults. -/
theorem test_lw :
    (next? (exec (.lw 10 17) { (running []).setReg 17 10 with stack := [(10, -5)] })).map (·.reg 10) = some (-5) := by decide
theorem test_lw_absent_faults :
    (next? (exec (.lw 255 3) ((running []).setReg 3 9000))).map (·.latch) = some (some (.stackOutOfBounds 9000 0 .load)) := by decide

/-- E1, E3. -/
theorem test_ecall_print : (next? (exec (.ecall 1) ((running []).setReg 10 (-3)))).map (·.output) = some [-3] := by decide
theorem test_ecall_read :
    (next? (exec (.ecall 5) { running [] with input := [42, 7] })).map (fun t => (t.reg 10, t.input)) = some (42, [7]) := by decide

/-- E4: no step on an empty stream. -/
theorem test_ecall_blocked : fault? (exec (.ecall 5) (running [])) = some .blockedOnInput := by decide

/-- A store of the reset value leaves no entry, so equal memories are equal lists. -/
theorem test_memory_canonical : Memory.write (Memory.write [(3, 1)] 7 9) 7 0 = [(3, 1)] ∧ Memory.write [(7, 9)] 3 1 = [(3, 1), (7, 9)] := by
  decide

/-! ### The resolver, the loader and the console -/

/-- A7, A6, A4: literals. -/
theorem test_parseInt :
    parseInt "+7".toList = 7 ∧ parseInt "0x10".toList = 0 ∧ parseInt "9223372036854775808".toList = 0 ∧
      parseInt "-9223372036854775808".toList = 0x8000000000000000#64 := by decide

/-- E6: the code is compared as a string. -/
theorem test_code : codeOfToken "1".toList = 1 ∧ codeOfToken "01".toList = 0 := by decide

/-- V5: commas are part of tokens. -/
theorem test_resolve_commas :
    resolve [] ["add".toList, "t2,".toList, "t0,".toList, "t1".toList] = .ok 0x000000000000000004FFFF02#96 := by decide

/-- V6, V7: too few operands; extra tokens. -/
theorem test_resolve_operands :
    resolve [] ["li".toList, "t0".toList] = .error (.missingOperand .li) ∧
      resolve [] ["ret".toList, "now".toList, "please".toList] = .ok 0x000000000000000000000009#96 := by decide

/-- V1: the last declaration wins; V4: comment lines take no slot. -/
theorem test_labels_last_wins :
    (buildLabels [["$a".toList], ["b".toList, "$a".toList], ["$a".toList]]).find "$a".toList = some 2 := by decide
theorem test_load_comments :
    loadProgram [["//".toList, "c".toList], ["$main".toList], ["/x".toList], ["li".toList, "t0".toList, "1".toList]] =
      .ok { words := [0#96, 0x000000000000000100000301#96], labels := [("$main".toList, 0)] } := by decide

/-- R122: the host's text. -/
theorem test_render : renderOutput [-3, 8] = "-3\n8\n".toList := by decide

/-! ### Witnesses: each shows a state and operands that meet a statement's hypotheses -/

/-- A one-slot program with its label. -/
def mainOnly : Image := { words := [0#96], labels := [("$main".toList, 0)] }

theorem witness_ResetEstablishesStartState :
    mainOnly.labels.find "$main".toList = some 0 ∧ LabelTable.find [] "$main".toList = none := by decide

theorem witness_ResetSatisfiesTheInvariant :
    mainOnly.words.length ≤ Config.maxSlots ∧ LabelTable.wellFormed mainOnly.words.length mainOnly.labels := by decide

/-- `sw t0 t1` at slot 0 with the address one past the last cell. -/
def storingOut : State := (running [0x00000000000000000004030A#96]).setReg 4 8096

theorem running_inv (p : List IWord) (h : p.length ≤ Config.maxSlots) : (running p).Inv :=
  ⟨⟨List.Pairwise.nil, by simp [running, State.reset]⟩, h, ⟨by simp [running, State.reset], List.Pairwise.nil⟩,
    fun cause hc => by simp [running] at hc⟩

theorem witness_StepKeepsTheInvariant :
    ∃ s t : State, s.Inv ∧ step s = .next t ∧ t ≠ s :=
  ⟨running [0#96], { running [0#96] with pc := 1 }, running_inv _ (by decide), rfl, by decide⟩

theorem witness_StepKeepsTheInvariant_fault :
    storingOut.Inv ∧ (next? (step storingOut)).map (·.latch) = some (some (.stackOutOfBounds 8096 0 .store)) :=
  ⟨⟨⟨List.Pairwise.nil, by simp [storingOut, State.setReg, running, State.reset]⟩, by decide, by decide,
    fun cause hc => by simp [storingOut, State.setReg, running] at hc⟩, by decide⟩

theorem witness_CanonicalMemoriesReadingAlikeAreEqual : Memory.wf [(3, 1#64), (8095, 2#64)] := by decide

theorem witness_EncodeOfDecodeIsTheCanonicalWord :
    (fieldOp 0x00000000000000010000000C#96).toNat = 0x0C ∧ fieldP1 0x00000000000000010000000C#96 = 0 ∧
      fieldP2 0x00000000000000010000000C#96 = 0 ∧ fieldP3 0x00000000000000010000000C#96 = 0 := by decide

theorem witness_UnusedFieldsAreIgnored :
    fieldOp 0x0000000000000005AABB0301#96 = fieldOp 0x000000000000000500000301#96 ∧
      fieldP1 0x0000000000000005AABB0301#96 = fieldP1 0x000000000000000500000301#96 ∧
      fieldImm 0x0000000000000005AABB0301#96 = fieldImm 0x000000000000000500000301#96 ∧
      0x0000000000000005AABB0301#96 ≠ 0x000000000000000500000301#96 := by decide

theorem witness_ReservedOpsDecodeToNop : 0x0D ≤ (fieldOp 0x0D#96).toNat ∧ 0x0D ≤ (fieldOp 0xFF#96).toNat := by decide

theorem witness_ProgramImageRoundTrips : [0x09#96].length ≤ 1 ∧ [0x09#96][0]? = some 0x09#96 := by decide

theorem witness_StepRunsTheFetchedInstruction :
    (running [0x09#96]).latch = none ∧ 0 ≤ (running [0x09#96]).pc.toInt ∧
      (running [0x09#96]).pc.toInt < (running [0x09#96]).program.length ∧ decode (wordBytes 0x09#96) = .ok (.ret, []) := by decide

theorem witness_StandingStillIsToldApart_aborted : State.reset.latch = some .entryLabelMissing := by decide

theorem witness_StandingStillIsToldApart_halted :
    (running []).latch = none ∧ ((running []).program.length : Int) ≤ (running []).pc.toInt ∧
      ({ running [0#96] with pc := -1 } : State).pc.toInt < 0 := by decide

/-- `ecall 5` at slot 0 with no input. -/
def waiting : State := running [0x00000000000000050000000C#96]

theorem witness_StandingStillIsToldApart_blocked :
    waiting.latch = none ∧ 0 ≤ waiting.pc.toInt ∧ waiting.pc.toInt < waiting.program.length ∧
      waiting.program[waiting.pc.toNat]? = some 0x00000000000000050000000C#96 ∧
      decodeWord 0x00000000000000050000000C#96 = .ecall 5 ∧ waiting.input = [] := by decide

theorem witness_ProgramIsTheSameForTheWholeRun :
    ∃ t : State, Host.Core.run core 1 (running [0#96]) = .next t ∧ t.pc = 1 := ⟨{ running [0#96] with pc := 1 }, rfl, rfl⟩

theorem witness_RestartForgetsTheRun :
    ∃ t : State, Host.Core.run core 1 (running [0x000000000000000500000301#96]) = .next t ∧ t.reg 3 = 5 :=
  ⟨{ (running [0x000000000000000500000301#96]).setReg 3 5 with pc := 1 }, rfl, rfl⟩

theorem witness_SumsWrapOnSignedValues :
    (3#8).toNat < 29 ∧ (next? (exec (.add 3 3 4) (running []))).isSome ∧ (next? (exec (.addi 3 3 1) (running []))).isSome := by decide

theorem witness_ComparisonsAreSignedAndBleComplementsBgt :
    (9 : Word) ≠ atSlot20.pc + 1 ∧ (next? (exec (.beq 3 4 9) atSlot20)).isSome ∧ (next? (exec (.bgt 3 4 9) atSlot20)).isSome ∧
      (next? (exec (.ble 3 4 9) atSlot20)).isSome := by decide

theorem witness_RetResumesAfterTheLastJal :
    ∃ t v : State, exec (.jal 4) atSlot20 = .next t ∧ exec (.jal 8) t = .next v ∧ t.pc ≠ atSlot20.pc ∧ t.reg 1 = 20 :=
  ⟨_, _, rfl, rfl, by decide, rfl⟩

theorem witness_OnlyTheBranchFamilyRedirects :
    Family.ofInstr (.sw 3 4) ≠ .branch ∧ (running []).latch = none ∧
      (next? (exec (.sw 3 4) (running []))).map (·.latch) = some none ∧ Family.ofInstr .ret = .branch := by decide

theorem witness_SwStoresOrFaults_in :
    0 ≤ (((running []).setReg 4 8095).reg 4).toInt ∧ (((running []).setReg 4 8095).reg 4).toInt < 8096 ∧
      0 ≤ ((running []).reg 4).toInt ∧ ((running []).reg 4).toInt < 8096 := by decide

theorem witness_SwStoresOrFaults_out :
    (((running []).setReg 4 (-1)).reg 4).toInt < 0 ∧ 8096 ≤ (((running []).setReg 4 8096).reg 4).toInt := by decide

theorem witness_LwLoadsOrFaults_in :
    0 ≤ (((running []).setReg 17 8095).reg 17).toInt ∧ (((running []).setReg 17 8095).reg 17).toInt < 8096 := by decide

theorem witness_LwLoadsOrFaults_out :
    (((running []).setReg 17 (-1)).reg 17).toInt < 0 ∧ 8096 ≤ (((running []).setReg 17 8096).reg 17).toInt := by decide

theorem witness_StoreThenLoadRoundTrips :
    0 ≤ (((running []).setReg 4 8095).reg 4).toInt ∧ (((running []).setReg 4 8095).reg 4).toInt < 8096 ∧ (28#8).toNat < 29 := by decide

theorem witness_StackIsReachedOnlyByTheMemoryFamily :
    Family.ofInstr (.ecall 5) ≠ .memory ∧ (next? (exec (.ecall 5) { running [] with input := [1] })).isSome ∧
      fault? (exec (.ecall 5) (running [])) = some .blockedOnInput ∧ (next? (exec (.lw 3 4) (running []))).isSome := by decide

theorem witness_FaultsArePreciseAndFromTheMemoryFamily :
    storingOut.latch = none ∧
      (next? (exec (.sw 3 4) storingOut)).map (·.latch) = some (some (.stackOutOfBounds 8096 0 .store)) ∧
      (next? (exec (.lw 3 4) storingOut)).map (·.latch) = some (some (.stackOutOfBounds 8096 0 .load)) := by decide

theorem witness_EcallServesItsCode :
    ({ running [] with input := [42, 7] } : State).input = 42 :: [7] ∧ waiting.input = [] ∧ (0 : Word) ≠ 1 ∧ (0 : Word) ≠ 5 ∧
      (93 : Word) ≠ 1 ∧ (93 : Word) ≠ 5 := by decide

theorem witness_ConsoleChangesOnlyByEcall :
    (next? (step (running [0x00000000000000010000000C#96]))).map (·.output) = some [0] ∧
      (next? (step { waiting with input := [9] })).map (fun t => (t.input, t.reg 10)) = some ([], 9) := by decide

theorem witness_SuppliedInputWakesABlockedCore : waiting.Blocked := by decide

theorem witness_SnapshotIsTheRegisterFileOfAHaltedCore :
    (running []).Halted ∧ ¬State.reset.Halted ∧ ¬(running [0#96]).Halted := by decide

theorem witness_ResolverEmitsWellFormedInstructions :
    LabelTable.wellFormed 1 mainOnly.labels ∧ 1 ≤ Config.maxSlots ∧
      resolve mainOnly.labels ["b".toList, "$main".toList] = .ok 0x04#96 := by decide

theorem witness_BuiltLabelTablesAreWellFormed :
    ("loop".toList).head? ≠ some '$' ∧ ∀ (i : Nat) (args : List Token), ([] : List TokenInstr)[i]? ≠ some ("$x".toList :: args) := by
  refine ⟨by decide, ?_⟩
  simp

theorem witness_LoadedImageIsTheResolvedProgram :
    loadProgram [["/".toList], ["$main".toList]] = .ok mainOnly ∧
      (slotsOfLines [["/".toList], ["$main".toList]])[0]? = some ["$main".toList] ∧
      loadProgram [["li".toList]] = .error (.missingOperand .li) ∧ isComment [[]] = false ∧ isComment ["/".toList] = true := by
  decide

theorem witness_RegisterTokensResolve : ∀ r : RegName, r.spelling ≠ "a7".toList := by
  intro r
  cases r <;> decide

theorem witness_ParseIntReadsDecimalTextBack : 0 ≤ (7 : Word).toInt ∧ renderInt 7 = ['7'] := by decide

theorem witness_ParseIntOfMalformedTokensIsZero :
    (∀ v, ¬IsLiteral "t0".toList v) ∧ IsLiteral "+9223372036854775808".toList (2 ^ 63) ∧ IsLiteral "0".toList 0 := by
  refine ⟨?_, ⟨"9223372036854775808".toList, by simp, by simp, .inr (.inl ⟨rfl, by simp [decimalValue]⟩)⟩,
    ⟨"0".toList, by simp, by simp, .inl ⟨rfl, rfl⟩⟩⟩
  rintro v ⟨ds, -, hds, ⟨rfl, -⟩ | ⟨h, -⟩ | ⟨h, -⟩⟩
  · exact absurd (hds 't' (by decide)) (by decide)
  · cases h
  · cases h

theorem witness_ParseIntOfLiteralsIsTheirValue :
    IsLiteral "-9223372036854775808".toList (-(2 ^ 63)) ∧ IsLiteral "+007".toList 7 :=
  ⟨⟨"9223372036854775808".toList, by simp, by simp, .inr (.inr ⟨rfl, by simp [decimalValue]⟩)⟩,
    ⟨"007".toList, by simp, by simp, .inr (.inl ⟨rfl, by simp [decimalValue]⟩)⟩⟩

/-- `$main`, `li t0 5`. -/
def straight : State := running [0#96, 0x000000000000000500000301#96]

theorem witness_StraightLineRunsReplayTheirRegisterEffects :
    straight.program.length ≤ Config.maxSlots ∧ 0 ≤ straight.pc.toInt ∧
      (∀ w ∈ straight.program.drop straight.pc.toNat, straightLine (decodeWord w) = true) ∧
      runFor 2 straight = .halted { straight.setReg 3 5 with pc := 2 } := by
  have hall : ∀ w ∈ [0#96, 0x000000000000000500000301#96], straightLine (decodeWord w) = true := by
    intro w hw
    rcases List.mem_cons.mp hw with rfl | hw
    · rfl
    · rcases List.mem_cons.mp hw with rfl | hw
      · rfl
      · cases hw
  exact ⟨by decide, by decide, hall, rfl⟩

/-- `b` to slot 1, `nop`. -/
def forward : State := running [0x000000000000000100000004#96, 0#96]

theorem witness_ForwardTextsRunForward :
    ∀ (i : Nat) (w : IWord), forward.program[i]? = some w → goesForward i (decodeWord w) = true := by
  intro i w h
  match i with
  | 0 => cases h; decide
  | 1 => cases h; decide
  | _ + 2 => cases h

/-- `ecall 5` with a value to read, `beq a0 t0` to slot 0, which is not taken, `ret` to slot 5. -/
def forwardRun : State :=
  { (running [0x00000000000000050000000C#96, 0x000000000000000000030A05#96, 0x09#96]).setReg 1 4 with input := [7] }

theorem witness_ForwardProgramsEnd : forwardRun.program.length ≤ Config.maxSlots ∧ forwardRun.RunGoesForward := by
  refine ⟨by decide, .of_step (fun _ => ⟨fun i v hi hv => ?_, by decide⟩) fun t ht => ?_⟩
  · cases hi; cases hv
  cases ht
  refine .of_step (fun _ => ⟨fun i v hi hv => ?_, by decide⟩) fun t ht => ?_
  · cases hi; cases hv
  cases ht
  refine .of_step (fun _ => ⟨fun i v hi hv => ?_, by decide⟩) fun t ht => ?_
  · cases hi; cases hv; decide
  cases ht
  refine .of_step (fun _ => ⟨fun i v hi hv => ?_, by decide⟩) fun t ht => ?_
  · cases hi
  cases ht

end Sys2Proof.Tests
end

section
/-! PROOFS. The final snapshot (00_scope.md R9): the list of registers is complete, and the snapshot is there exactly in a
halted state. -/

namespace Sys2Proof

/-- No register is missing from the list the snapshot is made of (10_state.md R11). -/
theorem RegName.mem_all (r : RegName) : r ∈ RegName.all :=
  List.mem_of_find?_eq_some r.ofToken?_spelling

theorem RegName.length_all : RegName.all.length = 29 := rfl

namespace Machine

variable {s : State}

/-- The normal end, in terms of the model's own pc test (40_execution_loop.md R84). -/
theorem State.halted_iff : s.Halted ↔ s.latch = none ∧ s.inProgram = false := by
  rw [State.inProgram_false_iff]

theorem State.snapshot_of_halted (h : s.Halted) :
    s.snapshot = some (RegName.all.map fun r => (r, s.reg r.specifier)) :=
  if_pos (State.halted_iff.mp h)

theorem State.snapshot_of_not_halted (h : ¬s.Halted) : s.snapshot = none :=
  if_neg (mt State.halted_iff.mpr h)

/-- Settles O38: a halted state's snapshot is the list of all registers, each paired with its value. -/
theorem snapshotIsTheRegisterFileOfAHaltedCore : Obligations.SnapshotIsTheRegisterFileOfAHaltedCore := by
  intro s
  refine ⟨fun h => ⟨_, State.snapshot_of_halted h, ?_, fun r => ?_⟩, State.snapshot_of_not_halted⟩
  · rw [List.length_map, RegName.length_all]
  · exact List.mem_map_of_mem r.mem_all

end Machine
end Sys2Proof
end

section
/-! PROOFS. A second run starts anew (10_state.md R29): a reset reads only the loaded program and its label table, and a run
keeps both. -/

namespace Sys2Proof.Machine

variable {s t : State}

/-- Whatever every step keeps holds at the end of a run if it holds at the start. -/
theorem run_keeps {P : State → Prop} (keeps : ∀ {u v : State}, step u = .next v → P u → P v) {k : Nat}
    (h : Host.Core.run core k s = .next t) (hs : P s) : P t := by
  induction k generalizing s with
  | zero => cases h; exact hs
  | succ k ih =>
    obtain ⟨u, hstep, hrun⟩ := run_succ_next_cases h
    exact ih hrun (keeps hstep hs)

/-- No effect of an instruction reaches the program or the label table (20_memory.md R45). -/
theorem Effect.program_labels {i : Instr} (h : Effect i s t) : t.program = s.program ∧ t.labels = s.labels := by
  cases h with
  | move | store | print | faultStore | faultLoad => exact ⟨rfl, rfl⟩
  | write | read => simp

theorem step_program_labels (h : step s = .next t) : t.program = s.program ∧ t.labels = s.labels := by
  obtain ⟨-, w, -, hexec⟩ := step_next_cases h
  exact (exec_next_effect hexec).program_labels

theorem run_program_labels {k : Nat} (h : Host.Core.run core k s = .next t) :
    t.program = s.program ∧ t.labels = s.labels := by
  refine run_keeps (P := fun u => u.program = s.program ∧ u.labels = s.labels) (fun hstep hkept => ?_) h ⟨rfl, rfl⟩
  obtain ⟨hprogram, hlabels⟩ := step_program_labels hstep
  obtain ⟨hprogram₀, hlabels₀⟩ := hkept
  exact ⟨hprogram.trans hprogram₀, hlabels.trans hlabels₀⟩

/-- A restart reads nothing of the state but the loaded program and its label table. -/
theorem State.restart_congr (hprogram : t.program = s.program) (hlabels : t.labels = s.labels) (input : List Word) :
    t.restart input = s.restart input := by
  rw [State.restart, State.restart, hprogram, hlabels]

/-- Settles O15: the run keeps the program and the label table, and a restart reads nothing else. -/
theorem restartForgetsTheRun : Obligations.RestartForgetsTheRun := by
  intro k s t input h
  obtain ⟨hprogram, hlabels⟩ := run_program_labels h
  exact State.restart_congr hprogram hlabels input

end Sys2Proof.Machine
end

section
/-! PROOFS. The memory family: what `sw` and `lw` do at an address within bounds (43_memory_ops.md R116, R117), the store and
load round trip (20_memory.md R47), and the constancy of the program store (R45). -/

namespace Sys2Proof.Machine

variable {s : State}

/-- `sw` within bounds writes the source's value to the cell and steps on (43_memory_ops.md R116). -/
theorem exec_sw_inBounds (src : Specifier) {addrReg : Specifier} (h : inBounds (s.reg addrReg) = true) :
    exec (.sw src addrReg) s =
      .next ({ s with stack := s.stack.write (s.reg addrReg).toNat (s.reg src) } : State).advance := by
  rw [show exec (.sw src addrReg) s = s.complete (s.memWrite (s.reg addrReg) (s.reg src)) from rfl,
    s.memWrite_ok _ h, State.complete_ok]

/-- `lw` within bounds writes the cell's content to the destination and steps on (43_memory_ops.md R117). -/
theorem exec_lw_inBounds (dst : Specifier) {addrReg : Specifier} (h : inBounds (s.reg addrReg) = true) :
    exec (.lw dst addrReg) s = .next (s.setReg dst (s.stack.read (s.reg addrReg).toNat)).advance := by
  rw [show exec (.lw dst addrReg) s = s.complete ((s.memRead (s.reg addrReg)).map fun v => s.setReg dst v) from rfl,
    s.memRead_ok h, Except.map, State.complete_ok]

/-- Settles O14: a run keeps the program, hence every slot of it, and the label table (20_memory.md R45, 10_state.md R27). -/
theorem programIsTheSameForTheWholeRun : Obligations.ProgramIsTheSameForTheWholeRun := by
  intro k s t h
  obtain ⟨hprogram, hlabels⟩ := run_program_labels h
  exact ⟨fun i => congrArg (·[i]?) hprogram, hlabels⟩

/-- Settles O31: a store writes no register, so the load goes to the cell just written. -/
theorem storeThenLoadRoundTrips : Obligations.StoreThenLoadRoundTrips := by
  intro src dst addrReg s hlow hhigh hdst
  have hin : inBounds (s.reg addrReg) = true := (inBounds_iff _).mpr ⟨hlow, hhigh⟩
  refine ⟨_, _, exec_sw_inBounds src hin, exec_lw_inBounds dst hin, ?_⟩
  rw [State.advance_reg, State.setReg_reg_same, if_pos hdst]
  exact Memory.read_write_same s.stack (s.reg addrReg).toNat (s.reg src)

end Sys2Proof.Machine
end

section
/-! PROOFS. The label table is built slot by slot, so the last slot of a program overrides what the slots before it bound
(30_encoding.md R53). -/

namespace Sys2Proof

variable {slots : List TokenInstr} {t : TokenInstr} {tok : Token} {i : Nat}

/-- A slot declares its token 0, and only a token that begins with the sigil (30_encoding.md R53, 90_conflicts.md C3). -/
theorem declaredLabel?_eq_some_iff : declaredLabel? t = some tok ↔ tok.head? = some '$' ∧ ∃ args, t = tok :: args := by
  match t with
  | [] => simp [declaredLabel?]
  | [] :: args =>
    constructor
    · nofun
    · rintro ⟨hsigil, -, ⟨⟩⟩
      cases hsigil
  | (c :: cs) :: args =>
    rw [declaredLabel?, Option.ite_none_right_eq_some]
    constructor
    · rintro ⟨rfl, ⟨⟩⟩
      exact ⟨rfl, args, rfl⟩
    · rintro ⟨hsigil, -, ⟨⟩⟩
      exact ⟨Option.some.inj hsigil, rfl⟩

/-- The table after two stretches of slots is the second's, given the table after the first. -/
theorem labelsFrom_append (n : Nat) (lt : LabelTable) (ts us : List TokenInstr) :
    labelsFrom n lt (ts ++ us) = labelsFrom (n + ts.length) (labelsFrom n lt ts) us := by
  induction ts generalizing n lt with
  | nil => rfl
  | cons t ts ih =>
    rw [List.cons_append, List.length_cons, Nat.add_comm ts.length, ← Nat.add_assoc]
    cases h : declaredLabel? t <;> simp only [labelsFrom, h, ih]

/-- A further slot binds the label it declares to its own index and no other string (30_encoding.md R53). -/
theorem find_buildLabels_concat (slots : List TokenInstr) (t : TokenInstr) (tok : Token) :
    (buildLabels (slots ++ [t])).find tok =
      if declaredLabel? t = some tok then some slots.length else (buildLabels slots).find tok := by
  rw [buildLabels, labelsFrom_append, Nat.zero_add, ← buildLabels]
  cases h : declaredLabel? t with
  | none => simp [labelsFrom, h]
  | some l => simp [labelsFrom, h, LabelTable.find_bind, eq_comm]

/-- Slot `i` declares the label `tok`. -/
def DeclaresAt (slots : List TokenInstr) (tok : Token) (i : Nat) : Prop :=
  ∃ t, slots[i]? = some t ∧ declaredLabel? t = some tok

theorem DeclaresAt.lt_length (h : DeclaresAt slots tok i) : i < slots.length := by
  obtain ⟨t, hget, -⟩ := h
  exact (List.getElem?_eq_some_iff.mp hget).1

theorem declaresAt_concat :
    DeclaresAt (slots ++ [t]) tok i ↔ DeclaresAt slots tok i ∨ i = slots.length ∧ declaredLabel? t = some tok := by
  rcases Nat.lt_trichotomy i slots.length with hlt | rfl | hgt
  · simp [DeclaresAt, List.getElem?_append_left hlt, hlt.ne]
  · simp [DeclaresAt]
  · simp [DeclaresAt, hgt.ne', hgt.le, List.getElem?_append_right, Nat.sub_ne_zero_of_lt hgt]

/-- `DeclaresAt` in the words of R53: the string begins with `$` and is token 0 of the slot. -/
theorem declaresAt_iff : DeclaresAt slots tok i ↔ tok.head? = some '$' ∧ ∃ args, slots[i]? = some (tok :: args) := by
  simp only [DeclaresAt, declaredLabel?_eq_some_iff]
  constructor
  · rintro ⟨_, hget, hsigil, args, rfl⟩
    exact ⟨hsigil, args, hget⟩
  · rintro ⟨hsigil, args, hget⟩
    exact ⟨_, hget, hsigil, args, rfl⟩

/-- By induction on the program from its end: the last slot either declares the string, and so is its last declaration, or
changes neither side. -/
theorem find_buildLabels_iff :
    (buildLabels slots).find tok = some i ↔ DeclaresAt slots tok i ∧ ∀ j, i < j → ¬DeclaresAt slots tok j := by
  induction slots using List.reverseRecOn with
  | nil => simp [buildLabels, labelsFrom, LabelTable.find, DeclaresAt]
  | append_singleton slots t ih =>
    rw [find_buildLabels_concat]
    by_cases hdecl : declaredLabel? t = some tok
    · have hlast : DeclaresAt (slots ++ [t]) tok slots.length := declaresAt_concat.mpr (.inr ⟨rfl, hdecl⟩)
      have hle {j : Nat} (h : DeclaresAt (slots ++ [t]) tok j) : j ≤ slots.length := by
        simpa [Nat.lt_succ_iff] using h.lt_length
      rw [if_pos hdecl, Option.some.injEq]
      constructor
      · rintro rfl
        exact ⟨hlast, fun j hj h => Nat.not_lt.mpr (hle h) hj⟩
      · rintro ⟨hi, hnone⟩
        exact Nat.le_antisymm (Nat.not_lt.mp fun hlt => hnone _ hlt hlast) (hle hi)
    · rw [if_neg hdecl, ih]
      simp only [declaresAt_concat, hdecl, and_false, or_false]

/-- Settles O42: the table finds the last slot that declares the string, and declaring is what R53 says it is. -/
theorem labelTableKeepsTheLastDeclaration : Obligations.LabelTableKeepsTheLastDeclaration := by
  intro slots tok i
  rw [find_buildLabels_iff, declaresAt_iff, and_assoc]
  refine and_congr_right fun hsigil => and_congr_right fun _ => ?_
  simp only [declaresAt_iff, hsigil, true_and, not_exists, ne_eq]

end Sys2Proof
end

section
/-! PROOFS. Fetch (40_execution_loop.md R81): a pc within the program names a slot, and the bytes of the word in it decode to
nothing but that word's instruction. -/

namespace Sys2Proof.Machine

/-- Fetch cannot fault: a pc within the program always names a word (40_execution_loop.md R81). -/
theorem State.exists_fetch_of_inProgram {s : State} (h : s.inProgram = true) : ∃ w, s.fetch = some w := by
  rw [← Option.ne_none_iff_exists', ne_eq, State.fetch_eq_none_iff, h]
  exact Bool.noConfusion

/-- A word's bytes decode to its own instruction only (30_encoding.md R70, R72). -/
theorem eq_decodeWord_of_decode {w : IWord} {i : Instr} (h : decode (wordBytes w) = .ok (i, [])) : i = decodeWord w := by
  have hword : decode (wordBytes w) = .ok (decodeWord w, []) := by
    simpa only [List.append_nil] using decode_wordBytes w []
  rw [hword] at h
  cases h
  rfl

/-- Settles O11: fetch finds the word, its bytes decode to `decodeWord` of it, and that is what `step` executes. -/
theorem stepRunsTheFetchedInstruction : Obligations.StepRunsTheFetchedInstruction := by
  intro s hlatch hlow hhigh
  obtain ⟨w, hfetch⟩ := State.exists_fetch_of_inProgram (s.inProgram_iff.mpr ⟨hlow, hhigh⟩)
  refine ⟨w, (s.fetch_eq_some_iff.mp hfetch).2, fun i hdecode => ?_⟩
  rw [eq_decodeWord_of_decode hdecode]
  exact step_of_fetch hlatch hfetch

end Sys2Proof.Machine
end

section
/-! PROOFS. The branch family (42_branch.md): what each of its instructions answers, that a change of the pc leaves the rest as
it is, and that no other family redirects. -/

namespace Sys2Proof.Machine

variable {s t : State} {i : Instr}

/-! ### What each branch answers (42_branch.md R104 to R109) -/

theorem State.branchIf_decide (s : State) (target : Word) (p : Prop) [Decidable p] :
    s.branchIf (decide p) target = s.setPc (if p then target else s.pc + 1#Config.xlen) := by
  rw [State.branchIf_eq_setPc]
  simp only [decide_eq_true_eq]

theorem exec_b (target : Word) (s : State) : exec (.b target) s = .next (s.setPc target) := rfl

theorem exec_beq (r1 r2 : Specifier) (target : Word) (s : State) :
    exec (.beq r1 r2 target) s = .next (s.setPc (if s.reg r1 = s.reg r2 then target else s.pc + 1#Config.xlen)) :=
  congrArg Host.Outcome.next (s.branchIf_decide target _)

theorem exec_bgt (r1 r2 : Specifier) (target : Word) (s : State) :
    exec (.bgt r1 r2 target) s =
      .next (s.setPc (if (s.reg r1).toInt > (s.reg r2).toInt then target else s.pc + 1#Config.xlen)) :=
  congrArg Host.Outcome.next (s.branchIf_decide target _)

theorem exec_ble (r1 r2 : Specifier) (target : Word) (s : State) :
    exec (.ble r1 r2 target) s =
      .next (s.setPc (if (s.reg r1).toInt ≤ (s.reg r2).toInt then target else s.pc + 1#Config.xlen)) :=
  congrArg Host.Outcome.next (s.branchIf_decide target _)

theorem exec_jal (target : Word) (s : State) :
    exec (.jal target) s = .next ((s.setReg regRa s.pc).setPc target) := rfl

theorem exec_ret (s : State) : exec .ret s = .next (s.setPc (s.reg regRa + 1#Config.xlen)) := rfl

/-! ### The frame of a pc change -/

/-- A change of the pc reaches no register, cell or stream, nor the program, the table or the latch. -/
theorem State.setPc_frame (s : State) (target : Word) :
    SameRegs s (s.setPc target) ∧ SameStack s (s.setPc target) ∧ SameConsole s (s.setPc target) ∧
      SameRun s (s.setPc target) :=
  ⟨fun _ => rfl, fun _ => rfl, ⟨rfl, rfl⟩, rfl, rfl, rfl⟩

/-- What the conditional branches have in common: an instruction that picks the pc by a test completes, and changes the pc
alone. -/
theorem conditional_completes {target : Word} {p : Prop} [Decidable p]
    (hexec : exec i s = .next (s.setPc (if p then target else s.pc + 1#Config.xlen))) :
    ∃ t, exec i s = .next t ∧ (p → t.pc = target) ∧ (¬p → t.pc = s.pc + 1#Config.xlen) ∧
      SameRegs s t ∧ SameStack s t ∧ SameConsole s t ∧ SameRun s t :=
  ⟨_, hexec, fun hp => if_pos hp, fun hp => if_neg hp, s.setPc_frame _⟩

/-- If the target is not the next slot, the pc tells whether the branch was taken. -/
theorem conditional_taken_iff {target : Word} {p : Prop} [Decidable p] (hne : target ≠ s.pc + 1#Config.xlen)
    (hexec : exec i s = .next (s.setPc (if p then target else s.pc + 1#Config.xlen))) (h : exec i s = .next t) :
    (t.pc = target ↔ p) ∧ SameRegs s t ∧ SameStack s t ∧ SameConsole s t := by
  rw [hexec] at h
  cases h
  obtain ⟨hregs, hstack, hconsole, -⟩ := s.setPc_frame (if p then target else s.pc + 1#Config.xlen)
  exact ⟨hne.ite_eq_left_iff, hregs, hstack, hconsole⟩

/-- Settles O20: `b` is a change of the pc alone. -/
theorem bRedirectsAlways : Obligations.BRedirectsAlways :=
  fun target s => ⟨_, exec_b target s, rfl, s.setPc_frame target⟩

/-- Settles O21: `beq` tests for equality. -/
theorem beqRedirectsIffEqual : Obligations.BeqRedirectsIffEqual :=
  fun r1 r2 target s => conditional_completes (exec_beq r1 r2 target s)

/-- Settles O22: `bgt` tests the signed order. -/
theorem bgtRedirectsIffGreater : Obligations.BgtRedirectsIffGreater :=
  fun r1 r2 target s => conditional_completes (exec_bgt r1 r2 target s)

/-- Settles O23: `ble` tests the signed order. -/
theorem bleRedirectsIffLessOrEqual : Obligations.BleRedirectsIffLessOrEqual :=
  fun r1 r2 target s => conditional_completes (exec_ble r1 r2 target s)

/-- Settles O24: each branch is taken exactly if its test holds, equal registers are equal signed values, and of two signed
values the first is less or equal exactly if it is not greater. -/
theorem comparisonsAreSignedAndBleComplementsBgt : Obligations.ComparisonsAreSignedAndBleComplementsBgt := by
  intro r1 r2 target s e g l hne hbeq hbgt hble
  obtain ⟨heq, hsameE⟩ := conditional_taken_iff hne (exec_beq r1 r2 target s) hbeq
  obtain ⟨hgt, hsameG⟩ := conditional_taken_iff hne (exec_bgt r1 r2 target s) hbgt
  obtain ⟨hle, hsameL⟩ := conditional_taken_iff hne (exec_ble r1 r2 target s) hble
  have hcomplement : l.pc = target ↔ g.pc ≠ target := by rw [hle, ne_eq, hgt, not_lt]
  exact ⟨heq.trans BitVec.toInt_inj.symm, hgt, hle, hcomplement, hsameE, hsameG, hsameL⟩

end Sys2Proof.Machine
end

section
/-! PROOFS. The branch family against the rest (42_branch.md R100): every other instruction that does not fault goes on at the
next slot, and a branch reads the registers and the pc only. -/

namespace Sys2Proof.Machine

variable {s t : State} {i : Instr}

/-! ### The other families go on at the next slot -/

/-- Whatever an instruction of the memory family has done, it either steps on or latches a fault. -/
theorem State.pc_of_complete {effect : Except FaultCause State} (hpc : ∀ u, effect = .ok u → u.pc = s.pc)
    (h : s.complete effect = .next t) (hlatch : t.latch = none) : t.pc = s.pc + 1#Config.xlen := by
  cases effect with
  | ok u =>
    cases h
    rw [State.advance_pc, hpc u rfl]
  | error cause =>
    cases h
    cases hlatch

theorem State.memWrite_pc {addr v : Word} {u : State} (h : s.memWrite addr v = .ok u) : u.pc = s.pc := by
  unfold State.memWrite at h
  split at h <;> cases h
  rfl

/-- Of the ways `ecall` can go, the blocked read answers no state and the others step on (44_syscall.md R121 to R124). -/
theorem pc_of_exec_ecall {code : Word} (h : exec (.ecall code) s = .next t) : t.pc = s.pc + 1#Config.xlen := by
  change execEcall code s = _ at h
  unfold execEcall at h
  split at h
  · cases h
    rfl
  split at h
  · unfold readInteger State.takeInput at h
    cases hinput : s.input with
    | nil =>
      rw [hinput] at h
      cases h
    | cons v rest =>
      rw [hinput] at h
      cases h
      simp
  · cases h
    rfl

/-- Outside the branch family an instruction that takes no fault goes on at the next slot (42_branch.md R100). -/
theorem pc_of_exec_nonbranch (hfamily : Family.ofInstr i ≠ .branch) (h : exec i s = .next t) (hlatch : t.latch = none) :
    t.pc = s.pc + 1#Config.xlen := by
  cases i with
  | nop => cases h; rfl
  | li | add | addi => cases h; simp
  | sw => exact State.pc_of_complete (fun _ => State.memWrite_pc) h hlatch
  | lw dst areg =>
    refine State.pc_of_complete (fun u hload => ?_) h hlatch
    cases hread : s.memRead (s.reg areg) <;> rw [hread] at hload <;> cases hload
    exact s.setReg_pc _ dst
  | ecall => exact pc_of_exec_ecall h
  | b | beq | bgt | ble | jal | ret => exact absurd rfl hfamily

/-! ### What a branch reads and writes -/

/-- The state with the link `jal` leaves in `ra` (42_branch.md R108); no other instruction leaves one. -/
def State.linked (s : State) : Instr → State
  | .jal _ => s.setReg regRa s.pc
  | _ => s

/-- The index a branch goes to: where it transfers control, else the next slot. -/
def branchPc (i : Instr) (s : State) : Word := (takenTarget? i s).getD (s.pc + 1#Config.xlen)

theorem branchPc_of_test {target : Word} {p : Prop} [Decidable p]
    (h : takenTarget? i s = if p then some target else none) :
    branchPc i s = if p then target else s.pc + 1#Config.xlen := by
  rw [branchPc, h, apply_ite (Option.getD · _)]
  rfl

/-- Every branch completes: it leaves its link, if it has one, and goes where it transfers control or to the next slot. -/
theorem exec_branch (hfamily : Family.ofInstr i = .branch) (s : State) :
    exec i s = .next ((s.linked i).setPc (branchPc i s)) := by
  cases i with
  | b target => exact exec_b target s
  | beq r1 r2 target =>
    rw [exec_beq, branchPc_of_test rfl]
    rfl
  | bgt r1 r2 target =>
    rw [exec_bgt, branchPc_of_test rfl]
    rfl
  | ble r1 r2 target =>
    rw [exec_ble, branchPc_of_test rfl]
    rfl
  | jal target => exact exec_jal target s
  | ret => exact exec_ret s
  | nop | li | add | addi | sw | lw | ecall => cases hfamily

theorem State.linked_latch (s : State) (i : Instr) : (s.linked i).latch = s.latch := by
  unfold State.linked
  split
  · exact s.setReg_latch _ _
  · rfl

/-- Only `jal` writes a register, and only `ra` (42_branch.md R100). -/
theorem State.linked_reg {r : Specifier} (hr : ∀ target, i = .jal target → r ≠ regRa) : (s.linked i).reg r = s.reg r := by
  unfold State.linked
  split
  · exact s.setReg_reg_ne _ (hr _ rfl)
  · rfl

/-- A branch that transfers control goes to the target in its word, if it has one (42_branch.md R101). -/
theorem branchPc_of_wordTarget {target : Word} (h : wordTarget? i = some target) (s : State) :
    branchPc i s = target ∨ branchPc i s = s.pc + 1#Config.xlen := by
  have htaken : takenTarget? i s = some target ∨ takenTarget? i s = none := by
    cases i with
    | b | jal => exact .inl h
    | beq | bgt | ble =>
      rw [← h]
      exact ite_eq_or_eq _ _ _
    | nop | li | add | addi | ret | sw | lw | ecall => cases h
  exact htaken.imp (fun h => by rw [branchPc, h]; rfl) (fun h => by rw [branchPc, h]; rfl)

/-! ### Stack memory and the streams reach no branch -/

/-- The state with other stack memory and other console streams. -/
def State.withStackAndStreams (s : State) (m : Memory) (o n : List Word) : State :=
  { s with stack := m, output := o, input := n }

theorem State.linked_withStackAndStreams (s : State) (i : Instr) (m : Memory) (o n : List Word) :
    (s.withStackAndStreams m o n).linked i = (s.linked i).withStackAndStreams m o n := by
  cases i <;> rfl

theorem branchPc_withStackAndStreams (i : Instr) (s : State) (m : Memory) (o n : List Word) :
    branchPc i (s.withStackAndStreams m o n) = branchPc i s := by
  cases i <;> rfl

/-- Settles O28: outside the family the pc steps on; inside it, the answer is the link and the new pc, both computed from the
registers and the pc. -/
theorem onlyTheBranchFamilyRedirects : Obligations.OnlyTheBranchFamilyRedirects := by
  refine ⟨fun i s t hfamily _ h hlatch => pc_of_exec_nonbranch hfamily h hlatch, fun i s hfamily => ?_⟩
  refine ⟨_, exec_branch hfamily s, s.linked_latch i, fun target htarget => branchPc_of_wordTarget htarget s,
    fun r hr => State.linked_reg hr, fun m o n => ?_⟩
  calc exec i (s.withStackAndStreams m o n)
      = .next (((s.withStackAndStreams m o n).linked i).setPc (branchPc i (s.withStackAndStreams m o n))) :=
        exec_branch hfamily _
    _ = .next (((s.linked i).withStackAndStreams m o n).setPc (branchPc i s)) := by
        rw [s.linked_withStackAndStreams, branchPc_withStackAndStreams]

end Sys2Proof.Machine
end

section
/-! PROOFS. The default family (45_nop.md R130): `nop` goes on to the next slot, and going on changes the pc alone. -/

namespace Sys2Proof.Machine

theorem exec_nop (s : State) : exec .nop s = .next s.advance := rfl

/-- Going on to the next slot reaches no register, cell or stream, nor the program, the table or the latch. -/
theorem State.advance_frame (s : State) :
    SameRegs s s.advance ∧ SameStack s s.advance ∧ SameConsole s s.advance ∧ SameRun s s.advance := by
  rw [s.advance_eq_setPc]
  exact s.setPc_frame _

/-- Settles O35: `nop` goes on to the next slot, whatever the state. -/
theorem nopOnlyAdvancesThePc : Obligations.NopOnlyAdvancesThePc :=
  fun s => ⟨s.advance, exec_nop s, s.advance_pc, s.advance_frame⟩

end Sys2Proof.Machine
end

section
/-! PROOFS. Decoding and encoding (30_encoding.md): what each made word decodes to, that a word is determined by the fields its
operation uses, and the byte image of a program. -/

namespace Sys2Proof

/-- Two words with the same fields are the same word. -/
theorem eq_of_fields {w w' : IWord} (hop : fieldOp w = fieldOp w') (hp1 : fieldP1 w = fieldP1 w')
    (hp2 : fieldP2 w = fieldP2 w') (hp3 : fieldP3 w = fieldP3 w') (himm : fieldImm w = fieldImm w') : w = w' := by
  rw [← makeWord_fields w, ← makeWord_fields w', hop, hp1, hp2, hp3, himm]

/-- The decoder inverts the encoder: each operation's word holds every operand in the field its format gives it. -/
theorem decodeWord_encode (i : Instr) : decodeWord (encode i) = i := by
  cases i <;> simp [encode, opByte, decodeWord]

/-- Settles O5: the bytes give back the word, and the word the instruction. -/
theorem decodeOfEncodeIsTheInstruction : Obligations.DecodeOfEncodeIsTheInstruction := by
  intro i rest
  rw [encodeBytes, decode_wordBytes, decodeWord_encode]

/-- Settles O7: the decoder's arm for each `op` reads only the fields the format table names for it. -/
theorem unusedFieldsAreIgnored : Obligations.UnusedFieldsAreIgnored := by
  intro w w' hop hp1 hp2 hp3 himm
  unfold fieldUse at hp1 hp2 hp3 himm
  unfold decodeWord
  rw [hop]
  split <;> simp_all

/-- Settles O8: the named arms of the decoder end at 0x0C. -/
theorem reservedOpsDecodeToNop : Obligations.ReservedOpsDecodeToNop := by
  intro w hop
  unfold decodeWord
  split <;> simp_all

/-- Settles O9: fourteen closed words, each decoded by evaluation. -/
theorem sampleWordsDecode : Obligations.SampleWordsDecode := by
  unfold Obligations.SampleWordsDecode
  decide

/-- An `op` byte of the map is the `op` byte of the instruction decoded. -/
theorem opByte_decodeWord {w : IWord} (hop : (fieldOp w).toNat ≤ 0x0C) : opByte (decodeWord w) = fieldOp w := by
  refine BitVec.eq_of_toNat_eq ?_
  unfold decodeWord
  split
  case h_13 =>
    simp only [imp_false] at *
    show 0 = (fieldOp w).toNat
    omega
  all_goals simp_all [opByte]

/-- Settles O6: field by field. The `op` is kept, a used field goes through the operand it holds, an unused one is 0 in both
words. -/
theorem encodeOfDecodeIsTheCanonicalWord : Obligations.EncodeOfDecodeIsTheCanonicalWord := by
  intro w hop hp1 hp2 hp3 himm
  have hkept := opByte_decodeWord hop
  unfold fieldUse at hp1 hp2 hp3 himm
  unfold decodeWord at hkept ⊢
  split at hkept <;> apply eq_of_fields <;> simp_all [encode]

/-- The number of a word's bytes, as a numeral (30_encoding.md R60). -/
theorem length_wordBytes_eq (w : IWord) : (wordBytes w).length = 12 := length_wordBytes w

theorem length_imageBytes (ws : List IWord) : (imageBytes ws).length = 12 * ws.length := by
  induction ws with
  | nil => rfl
  | cons w ws ih =>
    rw [imageBytes, List.length_append, ih, length_wordBytes_eq, List.length_cons, Nat.mul_succ, Nat.add_comm]

/-- From byte `12 * i` on, an image is the image of the words from slot `i` on (30_encoding.md R60). -/
theorem drop_imageBytes (ws : List IWord) (i : Nat) : (imageBytes ws).drop (12 * i) = imageBytes (ws.drop i) := by
  induction i generalizing ws with
  | zero => rfl
  | succ i ih =>
    cases ws with
    | nil => rfl
    | cons w ws =>
      rw [imageBytes, List.drop_succ_cons, ← ih, Nat.mul_succ, Nat.add_comm, ← List.drop_drop,
        List.drop_left' (length_wordBytes_eq w)]

/-- Reading an image takes its first word off and goes on with the rest. -/
theorem imageWords_wordBytes_append (w : IWord) {fuel : Nat} {rest : List Byte} {ws : List IWord}
    (h : imageWords fuel rest = .ok ws) : imageWords (fuel + 1) (wordBytes w ++ rest) = .ok (w :: ws) := by
  have hne : wordBytes w ++ rest ≠ [] :=
    List.append_ne_nil_of_left_ne_nil (List.ne_nil_of_length_eq_add_one (length_wordBytes_eq w)) rest
  rw [imageWords, takeWord_wordBytes]
  · simp only [h]
  · exact hne

theorem imageWords_imageBytes {ws : List IWord} {fuel : Nat} (h : ws.length ≤ fuel) :
    imageWords fuel (imageBytes ws) = .ok ws := by
  induction ws generalizing fuel with
  | nil => cases fuel <;> rfl
  | cons w ws ih =>
    cases fuel with
    | zero => cases h
    | succ fuel => exact imageWords_wordBytes_append w (ih (Nat.le_of_succ_le_succ h))

/-- Settles O10: from byte `12 * i` on the image begins with the bytes of slot `i`, the first of which is its `op`. -/
theorem programImageRoundTrips : Obligations.ProgramImageRoundTrips := by
  intro ws fuel hfuel
  refine ⟨imageWords_imageBytes hfuel, length_imageBytes ws, fun i w hw => ?_⟩
  have hdrop : (imageBytes ws).drop (12 * i) = wordBytes w ++ imageBytes (ws.drop (i + 1)) := by
    obtain ⟨hi, rfl⟩ := List.getElem?_eq_some_iff.mp hw
    rw [drop_imageBytes, List.drop_eq_getElem_cons hi, imageBytes]
  constructor
  · have hhead := List.getElem?_drop (xs := imageBytes ws) (i := 12 * i) (j := 0)
    rw [hdrop] at hhead
    exact hhead.symm
  · rw [hdrop, List.take_left' (length_wordBytes_eq w)]

end Sys2Proof
end

section
/-! PROOFS. The invariant of the state: stack memory in canonical form is determined by what its cells read, reset establishes
the invariant, and every shape of a next state keeps it. -/

namespace Sys2Proof.Machine

/-! ### The canonical form of stack memory (log entry 7) -/

/-- In canonical form the listed cells are those that read as something else than an unlisted one. -/
theorem Memory.mem_iff_read {m : Memory} (hm : m.wf) (a : Nat) (v : Word) :
    (a, v) ∈ m ↔ Memory.read m a = v ∧ v ≠ Config.stackInit := by
  induction m with
  | nil =>
    rw [Memory.read]
    exact ⟨nofun, fun ⟨hread, hv⟩ => absurd hread.symm hv⟩
  | cons c rest ih =>
    obtain ⟨k, u⟩ := c
    obtain ⟨hrising, hlisted⟩ := hm
    obtain ⟨hfirst, hrest⟩ := List.pairwise_cons.mp hrising
    have ih := ih ⟨hrest, fun c hc => hlisted c (List.mem_cons_of_mem _ hc)⟩
    have hu : u ≠ Config.stackInit := (hlisted _ List.mem_cons_self).2
    by_cases hak : a = k
    · subst hak
      have hnot : (a, v) ∉ rest := fun hmem => Nat.lt_irrefl a (hfirst (a, v) hmem)
      simp only [List.mem_cons, Prod.mk.injEq, true_and, hnot, or_false, Memory.read, if_true]
      exact ⟨fun hv => ⟨hv.symm, hv ▸ hu⟩, fun ⟨hv, _⟩ => hv.symm⟩
    · simp only [List.mem_cons, Prod.mk.injEq, hak, false_and, false_or, Memory.read, if_false]
      exact ih

/-- Settles O4: both lists rise strictly and have the same members, read off the cells. -/
theorem canonicalMemoriesReadingAlikeAreEqual : Obligations.CanonicalMemoriesReadingAlikeAreEqual := by
  intro m n hm hn hread
  have : Std.Irrefl fun c d : Nat × Word => c.1 < d.1 := ⟨fun c => Nat.lt_irrefl c.1⟩
  have : Std.Antisymm fun c d : Nat × Word => c.1 < d.1 := ⟨fun c d hcd hdc => absurd hcd (Nat.lt_asymm hdc)⟩
  refine hm.1.eq_of_mem_iff hn.1 fun ⟨a, v⟩ => ?_
  rw [Memory.mem_iff_read hm, Memory.mem_iff_read hn, hread]

/-! ### Reset (70_reset_and_hazards.md R160, R161) -/

variable (policy : Config.EntryMissingPolicy) (image : Image) (input : List Word)

/-- The state reset starts from, before it looks for the entry label. -/
def State.loaded : State where
  regs := Vector.replicate 29 0#Config.xlen
  pc := 0#Config.xlen
  stack := []
  latch := none
  output := []
  input := input
  program := image.words
  labels := image.labels

theorem State.loaded_reg (r : Specifier) : (State.loaded image input).reg r = 0#Config.xlen := by
  unfold State.reg
  split
  · exact Vector.getElem_replicate _
  · rfl

variable {image}

theorem State.resetWith_of_bound {i : Nat} (h : image.labels.find Config.entryLabel = some i) :
    State.resetWith policy image input = (State.loaded image input).setPc (BitVec.ofNat Config.xlen i) := by
  simp only [State.resetWith, h]
  rfl

theorem State.resetWith_fault_of_unbound (h : image.labels.find Config.entryLabel = none) :
    State.resetWith .fault image input = (State.loaded image input).takeFault .entryLabelMissing := by
  simp only [State.resetWith, h]
  rfl

theorem State.resetWith_startAt0_of_unbound (h : image.labels.find Config.entryLabel = none) :
    State.resetWith .startAt0 image input = State.loaded image input := by
  simp only [State.resetWith, h]
  rfl

/-- The three ways a reset can come out. -/
theorem State.resetWith_cases {P : State → Prop}
    (bound : ∀ i, image.labels.find Config.entryLabel = some i →
      P ((State.loaded image input).setPc (BitVec.ofNat Config.xlen i)))
    (fault : image.labels.find Config.entryLabel = none → P ((State.loaded image input).takeFault .entryLabelMissing))
    (startAt0 : image.labels.find Config.entryLabel = none → P (State.loaded image input)) :
    P (State.resetWith policy image input) := by
  cases hfind : image.labels.find Config.entryLabel with
  | some i => exact State.resetWith_of_bound policy input hfind ▸ bound i hfind
  | none =>
    cases policy with
    | fault => exact State.resetWith_fault_of_unbound input hfind ▸ fault hfind
    | startAt0 => exact State.resetWith_startAt0_of_unbound input hfind ▸ startAt0 hfind

/-- Whichever way the entry label comes out, reset changes nothing but the pc and the latch of the loaded state. -/
theorem State.resetWith_eq_loaded :
    ∃ pc latch, State.resetWith policy image input = { State.loaded image input with pc := pc, latch := latch } :=
  State.resetWith_cases policy input
    (P := fun s => ∃ pc latch, s = { State.loaded image input with pc := pc, latch := latch })
    (fun _ _ => ⟨_, _, rfl⟩) (fun _ => ⟨_, _, rfl⟩) fun _ => ⟨_, _, rfl⟩

/-- Settles O1: the entry label and the policy decide the pc and the latch, and the rest is the loaded state's. -/
theorem resetEstablishesStartState : Obligations.ResetEstablishesStartState := by
  intro policy image input
  obtain ⟨pc, latch, hreset⟩ := State.resetWith_eq_loaded (image := image) policy input
  refine ⟨?_, ?_, ?_, ?_, ?_, ?_, fun i hi => ?_, fun hnone => ?_⟩
  · rw [hreset]
    exact State.loaded_reg image input
  · intro a
    rw [hreset]
    rfl
  iterate 4 exact hreset ▸ rfl
  · rw [State.resetWith_of_bound policy input hi]
    exact ⟨rfl, rfl⟩
  · cases policy with
    | fault =>
      rw [State.resetWith_fault_of_unbound input hnone]
      exact ⟨rfl, rfl⟩
    | startAt0 =>
      rw [State.resetWith_startAt0_of_unbound input hnone]
      exact ⟨rfl, rfl⟩

/-- Settles O2: no cell is listed, the image brings its own bounds, and a reset that latches found no entry label. -/
theorem resetSatisfiesTheInvariant : Obligations.ResetSatisfiesTheInvariant := by
  have hreset (policy : Config.EntryMissingPolicy) (image : Image) (input : List Word)
      (hsize : image.words.length ≤ Config.maxSlots) (hlabels : LabelTable.wellFormed image.words.length image.labels) :
      (State.resetWith policy image input).Inv := by
    refine State.resetWith_cases policy input (fun i _ => ?_) (fun hnone => ?_) (fun _ => ?_)
    · exact ⟨Memory.wf_nil, hsize, hlabels, nofun⟩
    · refine ⟨Memory.wf_nil, hsize, hlabels, fun cause hcause => ?_⟩
      cases hcause
      exact ⟨rfl, hnone⟩
    · exact ⟨Memory.wf_nil, hsize, hlabels, nofun⟩
  exact ⟨hreset .fault ⟨[], []⟩ [] (Nat.zero_le _) ⟨nofun, .nil⟩, hreset⟩

end Sys2Proof.Machine
end

section
/-! PROOFS. Every step keeps the invariant: the shapes of a next state, one part of the invariant at a time. -/

namespace Sys2Proof.Machine

variable {s t : State} {i : Instr}

/-- Only a store within bounds writes a cell, and it keeps the canonical form (20_memory.md R38). -/
theorem Effect.stack_wf (h : Effect i s t) (hwf : s.stack.wf) : t.stack.wf := by
  cases h with
  | move | print | faultStore | faultLoad => exact hwf
  | write | read =>
    simp only [State.setPc_stack, State.advance_stack, State.setReg_stack]
    exact hwf
  | store src areg _ hb => exact Memory.wf_write hwf _ (toNat_lt_of_inBounds hb)

/-- Of the shapes of a next state two latch a cause: that of `sw` and that of `lw` at an address out of bounds, which change
nothing else (60_exceptions.md R141). -/
theorem Effect.new_latch (h : Effect i s t) (hlatch : s.latch = none) {cause : FaultCause} (hcause : t.latch = some cause) :
    t = s.takeFault cause ∧
      ((∃ dst areg, i = .lw dst areg ∧ cause = .stackOutOfBounds (s.reg areg) s.pc .load ∧
          inBounds (s.reg areg) = false) ∨
       (∃ src areg, i = .sw src areg ∧ cause = .stackOutOfBounds (s.reg areg) s.pc .store ∧
          inBounds (s.reg areg) = false)) := by
  have hno {u : State} (hu : u.latch = s.latch) (hsome : u.latch = some cause) : False := by
    rw [hu, hlatch] at hsome
    cases hsome
  cases h with
  | move | store | print => exact (hno rfl hcause).elim
  | write | read => exact (hno (by simp) hcause).elim
  | faultStore src areg hi hb =>
    cases hcause
    exact ⟨rfl, .inr ⟨src, areg, hi, rfl, hb⟩⟩
  | faultLoad dst areg hi hb =>
    cases hcause
    exact ⟨rfl, .inl ⟨dst, areg, hi, rfl, hb⟩⟩

/-- A fault leaves the faulting instruction at the pc and its address register as it was, so the recorded cause is the true
one (60_exceptions.md R141, R144). -/
theorem Effect.explains (h : Effect i s t) (hcurrent : s.current = some i) (hlatch : s.latch = none) {cause : FaultCause}
    (hcause : t.latch = some cause) : t.Explains cause := by
  obtain ⟨rfl, ⟨r, areg, rfl, rfl, hb⟩ | ⟨r, areg, rfl, rfl, hb⟩⟩ := h.new_latch hlatch hcause <;>
    exact ⟨hb, rfl, r, areg, hcurrent, rfl⟩

theorem State.current_of_fetch {w : IWord} (h : s.fetch = some w) : s.current = some (decodeWord w) := by
  rw [State.current, h, Option.map_some]

/-- Settles O3: the program and its labels stay, and each shape of the next state keeps the memory canonical and any new latch
true. -/
theorem stepKeepsTheInvariant : Obligations.StepKeepsTheInvariant := by
  intro s t hinv hstep
  obtain ⟨hlatch, w, hfetch, hexec⟩ := step_next_cases hstep
  have heffect := exec_next_effect hexec
  obtain ⟨hprogram, hlabels⟩ := step_program_labels hstep
  refine ⟨heffect.stack_wf hinv.stackWf, ?_, ?_, fun cause => heffect.explains (State.current_of_fetch hfetch) hlatch⟩
  · rw [hprogram]
    exact hinv.sizeOk
  · rw [hprogram, hlabels]
    exact hinv.labelsOk

end Sys2Proof.Machine
end

section
/-! PROOFS. The arithmetic family (41_arithmetic.md): one register written and the pc stepped on; and the link of `jal` and
`ret` (42_branch.md section 2). -/

namespace Sys2Proof.Machine

variable {s : State} {i : Instr}

theorem exec_li (dst : Specifier) (imm : Word) (s : State) : exec (.li dst imm) s = .next (s.setReg dst imm).advance := rfl

theorem exec_add (dst src1 src2 : Specifier) (s : State) :
    exec (.add dst src1 src2) s = .next (s.setReg dst (s.reg src1 + s.reg src2)).advance := rfl

theorem exec_addi (dst src : Specifier) (imm : Word) (s : State) :
    exec (.addi dst src imm) s = .next (s.setReg dst (s.reg src + imm)).advance := rfl

/-- A write of one register and a step to the next slot: what the written register reads, and the frame. -/
theorem State.setReg_advance_frame (s : State) (d : Specifier) (v : Word) :
    SameRegsBut d s (s.setReg d v).advance ∧ SameStack s (s.setReg d v).advance ∧ SameConsole s (s.setReg d v).advance ∧
      SameRun s (s.setReg d v).advance := by
  refine ⟨fun r hr => s.setReg_reg_ne v hr, fun a => ?_, ?_, ?_⟩ <;>
    simp [SameConsole, SameRun]

/-- What the instructions that write one register have in common: one that does completes, and changes that register and the pc
alone. -/
theorem write_completes {dst : Specifier} {v : Word} (hexec : exec i s = .next (s.setReg dst v).advance) :
    ∃ t, exec i s = .next t ∧ t.pc = s.pc + 1#Config.xlen ∧ t.reg dst = (if dst.toNat < 29 then v else 0#Config.xlen) ∧
      SameRegsBut dst s t ∧ SameStack s t ∧ SameConsole s t ∧ SameRun s t :=
  ⟨_, hexec, congrArg (· + 1#Config.xlen) (s.setReg_pc v dst), s.setReg_reg_same v dst, s.setReg_advance_frame dst v⟩

/-- Settles O16: `li` writes its immediate. -/
theorem liLoadsTheImmediate : Obligations.LiLoadsTheImmediate :=
  fun dst imm s => write_completes (exec_li dst imm s)

/-- Settles O17: `add` writes the sum of the words, which is the sum of their values modulo 2^64. -/
theorem addSumsItsSources : Obligations.AddSumsItsSources :=
  fun dst src1 src2 s => BitVec.add_def (s.reg src1) (s.reg src2) ▸ write_completes (exec_add dst src1 src2 s)

/-- Settles O18: `addi` writes the sum of the words, which is the sum of their values modulo 2^64. -/
theorem addiSumsSourceAndImmediate : Obligations.AddiSumsSourceAndImmediate :=
  fun dst src imm s => BitVec.add_def (s.reg src) imm ▸ write_completes (exec_addi dst src imm s)

/-- Settles O19: both write a sum of words to a register that holds it, and `toInt_add_eq` gives the sum's signed value. -/
theorem sumsWrapOnSignedValues : Obligations.SumsWrapOnSignedValues := by
  intro dst src1 src2 imm s t u hdst hadd haddi
  rw [exec_add] at hadd
  rw [exec_addi] at haddi
  cases hadd
  cases haddi
  simp only [State.advance_reg, State.setReg_reg_same, hdst, if_true]
  exact ⟨toInt_add_eq _ _, toInt_add_eq _ _⟩

/-! ### The link -/

theorem State.reg_ra_after_jal (s : State) (target : Word) : ((s.setReg regRa s.pc).setPc target).reg regRa = s.pc :=
  s.setReg_reg_same s.pc regRa

/-- Settles O25: the link goes to `ra`, and the jump changes the pc alone. -/
theorem jalLinksItsOwnIndex : Obligations.JalLinksItsOwnIndex := by
  intro target s
  obtain ⟨hregs, hstack, hconsole, hrun⟩ := s.setReg_advance_frame regRa s.pc
  exact ⟨_, exec_jal target s, rfl, s.reg_ra_after_jal target, hregs, hstack, hconsole, hrun⟩

/-- Settles O26: `ret` is a change of the pc alone. -/
theorem retGoesPastTheLink : Obligations.RetGoesPastTheLink :=
  fun s => ⟨_, exec_ret s, rfl, s.setPc_frame _⟩

/-- Settles O27: `ra` holds the index of the last `jal`, so `ret` goes past that one, and two slots leave two links. -/
theorem retResumesAfterTheLastJal : Obligations.RetResumesAfterTheLastJal := by
  constructor
  · intro target s t u hjal hra
    cases hjal
    exact ⟨_, exec_ret u, congrArg (· + 1#Config.xlen) (hra.trans (s.reg_ra_after_jal target))⟩
  · intro outer inner s t u v houter _ hinner hne
    cases houter
    cases hinner
    intro hsame
    exact hne ((u.reg_ra_after_jal inner).symm.trans (hsame.trans (s.reg_ra_after_jal outer)))

end Sys2Proof.Machine
end

section
/-! PROOFS. The syscall family (44_syscall.md), the enabling of a step (40_execution_loop.md R82), and the ways a core can stand
still (R84, R87). -/

namespace Sys2Proof.Machine

variable {s t : State}

/-! ### What `ecall` answers (44_syscall.md R121 to R124) -/

theorem exec_ecall_print (s : State) : exec (.ecall 1#Config.xlen) s = .next (s.emit (s.reg regA0)).advance := rfl

theorem exec_ecall_read {v : Word} {rest : List Word} (h : s.input = v :: rest) :
    exec (.ecall 5#Config.xlen) s = .next (({ s with input := rest } : State).setReg regA0 v).advance := by
  simp [exec, execEcall, readInteger, State.takeInput, h]

theorem exec_ecall_blocked (h : s.input = []) : exec (.ecall 5#Config.xlen) s = .fault .blockedOnInput := by
  simp [exec, execEcall, readInteger, State.takeInput, h]

theorem exec_ecall_other {code : Word} (h1 : code ≠ 1#Config.xlen) (h5 : code ≠ 5#Config.xlen) (s : State) :
    exec (.ecall code) s = .next s.advance := by
  simp [exec, execEcall, h1, h5]

/-- Settles O34: each code by its own answer; the value read is written to `a0`, which is a register. -/
theorem ecallServesItsCode : Obligations.EcallServesItsCode := by
  intro s
  refine ⟨⟨_, exec_ecall_print s, rfl, rfl, rfl, fun _ => rfl, fun _ => rfl, rfl, rfl, rfl⟩, fun v rest hinput => ?_,
    fun hinput t ht => ?_, fun code h1 h5 => ⟨_, exec_ecall_other h1 h5 s, s.advance_pc, s.advance_frame⟩⟩
  · obtain ⟨hregs, hstack, ⟨houtput, hinput'⟩, hrun⟩ := State.setReg_advance_frame { s with input := rest } regA0 v
    exact ⟨_, exec_ecall_read hinput, by simp, State.setReg_reg_same _ v regA0, hinput', houtput, hregs, hstack, hrun⟩
  · cases (exec_ecall_blocked hinput).symm.trans ht

/-! ### Steps that answer no next state -/

theorem step_of_latched {cause : FaultCause} (h : s.latch = some cause) : step s = .fault (.aborted cause) := by
  simp [step, h]

theorem step_of_halted (h : s.Halted) : step s = .fault .halted := by
  obtain ⟨hlatch, hout⟩ := State.halted_iff.mp h
  simp [step, hlatch, s.fetch_eq_none_iff.mpr hout]

theorem step_of_blocked (h : s.Blocked) : step s = .fault .blockedOnInput := by
  obtain ⟨hlatch, hcurrent, hinput⟩ := h
  obtain ⟨w, hfetch, hdecode⟩ := Option.map_eq_some_iff.mp hcurrent
  rw [step_of_fetch hlatch hfetch, hdecode]
  exact exec_ecall_blocked hinput

/-- The current instruction is the decoded word of the slot the pc names. -/
theorem State.current_eq_some_iff {i : Instr} (hin : s.inProgram = true) :
    s.current = some i ↔ ∃ w, s.program[s.pc.toNat]? = some w ∧ decodeWord w = i := by
  simp only [State.current, Option.map_eq_some_iff, State.fetch_eq_some_iff, hin, true_and]

/-- Settles O13: each way to stand still stops the first step, whatever the number of steps. -/
theorem standingStillIsToldApart : Obligations.StandingStillIsToldApart := by
  refine ⟨fun s cause k hlatch => run_succ_of_fault (step_of_latched hlatch) k,
    fun s k hlatch hout => run_succ_of_fault (step_of_halted ⟨hlatch, hout⟩) k,
    fun s w k hlatch hlow hhigh hw hdecode hinput => run_succ_of_fault (step_of_blocked ⟨hlatch, ?_, hinput⟩) k⟩
  exact (State.current_eq_some_iff (s.inProgram_iff.mpr ⟨hlow, hhigh⟩)).mpr ⟨w, hw, hdecode⟩

/-- With no fault latched and the pc within the program, a step answers a next state unless the core is blocked. -/
theorem step_next_of_not_blocked (hlatch : s.latch = none) (hin : s.inProgram = true) (hblocked : ¬s.Blocked) :
    ∃ t, step s = .next t := by
  obtain ⟨w, hfetch⟩ := State.exists_fetch_of_inProgram hin
  rw [step_of_fetch hlatch hfetch]
  refine (exec_next_or_blocked (decodeWord w) s).resolve_right fun ⟨hdecode, hinput, _⟩ => hblocked ⟨hlatch, ?_, hinput⟩
  rw [State.current_of_fetch hfetch, hdecode]

/-- Settles O12: a step that answers a next state ran a fetched instruction and was not blocked; the converse is
`step_next_of_not_blocked`. -/
theorem stepAnswersNextExactlyWhenEnabled : Obligations.StepAnswersNextExactlyWhenEnabled := by
  intro s
  constructor
  · rintro ⟨t, hstep⟩
    obtain ⟨hlatch, w, hfetch, -⟩ := step_next_cases hstep
    obtain ⟨hin, -⟩ := s.fetch_eq_some_iff.mp hfetch
    refine ⟨hlatch, s.inProgram_iff.mp hin, fun ⟨hcurrent, hinput⟩ => ?_⟩
    have hblocked : s.Blocked := ⟨hlatch, (State.current_eq_some_iff hin).mpr hcurrent, hinput⟩
    cases (step_of_blocked hblocked).symm.trans hstep
  · rintro ⟨hlatch, hin, henabled⟩
    have hin := s.inProgram_iff.mpr hin
    exact step_next_of_not_blocked hlatch hin fun ⟨_, hcurrent, hinput⟩ =>
      henabled ⟨(State.current_eq_some_iff hin).mp hcurrent, hinput⟩

/-! ### The console along a step (10_state.md section 6) -/

/-- Settles O36: of the shapes of a next state, one appends to the output and one takes from the input. -/
theorem consoleChangesOnlyByEcall : Obligations.ConsoleChangesOnlyByEcall := by
  intro s t hstep
  obtain ⟨-, w, hfetch, hexec⟩ := step_next_cases hstep
  have hcurrent := State.current_of_fetch hfetch
  cases exec_next_effect hexec with
  | move | store | faultStore | faultLoad => exact ⟨.inl rfl, .inl rfl⟩
  | write => exact ⟨.inl (by simp), .inl (by simp)⟩
  | print hi => exact ⟨.inr ⟨hi ▸ hcurrent, rfl, rfl⟩, .inl rfl⟩
  | read v rest hi hinput =>
    obtain ⟨-, -, ⟨houtput, hrest⟩, -⟩ := State.setReg_advance_frame { s with input := rest } regA0 v
    refine ⟨.inl houtput, .inr ⟨hi ▸ hcurrent, ?_, houtput⟩⟩
    rw [hrest, hinput]
    exact congrArg (· :: rest) (State.setReg_reg_same _ v regA0).symm

/-- Settles O37: the supplied value is the whole stream, and fetch does not read it. -/
theorem suppliedInputWakesABlockedCore : Obligations.SuppliedInputWakesABlockedCore := by
  rintro s v ⟨hlatch, hcurrent, hinput⟩
  obtain ⟨w, hfetch, hdecode⟩ := Option.map_eq_some_iff.mp hcurrent
  have hsupplied : (s.supplyInput v).input = v :: [] := by rw [State.supplyInput_input, hinput, List.nil_append]
  have hstep : step (s.supplyInput v) = exec (decodeWord w) (s.supplyInput v) := step_of_fetch hlatch hfetch
  rw [hdecode, exec_ecall_read hsupplied] at hstep
  obtain ⟨hregs, -, ⟨-, hrest⟩, -⟩ := State.setReg_advance_frame { s with input := [] } regA0 v
  exact ⟨_, hstep, State.setReg_reg_same _ v regA0, hrest, by simp, hregs⟩

end Sys2Proof.Machine
end

section
/-! PROOFS. The memory family out of bounds (60_exceptions.md section 1), both outcomes of `sw` and `lw` (43_memory_ops.md), and
that nothing else reaches stack memory (20_memory.md R37). -/

namespace Sys2Proof.Machine

variable {s t : State} {i : Instr}

/-! ### Both outcomes of `sw` and `lw` -/

theorem exec_sw_outOfBounds (src : Specifier) {addrReg : Specifier} (h : inBounds (s.reg addrReg) = false) :
    exec (.sw src addrReg) s = .next (s.takeFault (.stackOutOfBounds (s.reg addrReg) s.pc .store)) := by
  rw [show exec (.sw src addrReg) s = s.complete (s.memWrite (s.reg addrReg) (s.reg src)) from rfl,
    s.memWrite_error _ h, State.complete_error]

theorem exec_lw_outOfBounds (dst : Specifier) {addrReg : Specifier} (h : inBounds (s.reg addrReg) = false) :
    exec (.lw dst addrReg) s = .next (s.takeFault (.stackOutOfBounds (s.reg addrReg) s.pc .load)) := by
  rw [show exec (.lw dst addrReg) s = s.complete ((s.memRead (s.reg addrReg)).map fun v => s.setReg dst v) from rfl,
    s.memRead_error h, Except.map, State.complete_error]

/-- What the two faults have in common: an instruction that takes a fault changes the latch alone, and the next step aborts
with the cause. -/
theorem fault_aborts {cause : FaultCause} (hexec : exec i s = .next (s.takeFault cause)) :
    ∃ t, exec i s = .next t ∧ t.pc = s.pc ∧ t.latch = some cause ∧ step t = .fault (.aborted cause) ∧
      SameRegs s t ∧ SameStack s t ∧ SameConsole s t ∧ t.program = s.program ∧ t.labels = s.labels :=
  ⟨_, hexec, rfl, rfl, step_of_latched rfl, fun _ => rfl, fun _ => rfl, ⟨rfl, rfl⟩, rfl, rfl⟩

/-- Settles O29: within bounds one cell is written, outside the fault is taken. -/
theorem swStoresOrFaults : Obligations.SwStoresOrFaults := by
  intro src addrReg s
  refine ⟨fun hin => ?_, fun hout => fault_aborts (exec_sw_outOfBounds src ((inBounds_false_iff _).mpr hout))⟩
  exact ⟨_, exec_sw_inBounds src ((inBounds_iff _).mpr hin), rfl, s.stack.read_write_same _ _,
    fun a ha => s.stack.read_write_ne _ ha, fun _ => rfl, ⟨rfl, rfl⟩, rfl, rfl, rfl⟩

/-- Settles O30: within bounds `lw` writes one register, outside the fault is taken. -/
theorem lwLoadsOrFaults : Obligations.LwLoadsOrFaults := by
  intro dst addrReg s
  exact ⟨fun hin => write_completes (exec_lw_inBounds dst ((inBounds_iff _).mpr hin)),
    fun hout => fault_aborts (exec_lw_outOfBounds dst ((inBounds_false_iff _).mpr hout))⟩

/-! ### Precise faults -/

/-- Settles O33: the shapes of a next state that latch a cause, with the bounds test spelled out. -/
theorem faultsArePreciseAndFromTheMemoryFamily : Obligations.FaultsArePreciseAndFromTheMemoryFamily := by
  intro i s t cause hlatch hexec hcause
  have hnew := (exec_next_effect hexec).new_latch hlatch hcause
  simp only [inBounds_false_iff] at hnew
  exact hnew

/-! ### Stack memory is out of reach of the other families -/

/-- Only `sw` writes a cell. -/
theorem Effect.sameStack (h : Effect i s t) (hi : ∀ src areg, i ≠ .sw src areg) : SameStack s t := by
  cases h with
  | move | print | faultStore | faultLoad => exact fun _ => rfl
  | write | read => exact fun _ => by simp
  | store src areg h => exact absurd h (hi src areg)

/-- The state with other stack memory. -/
def State.withStack (s : State) (m : Memory) : State := { s with stack := m }

theorem State.setReg_withStack (s : State) (m : Memory) (d : Specifier) (v : Word) :
    (s.withStack m).setReg d v = (s.setReg d v).withStack m := by
  unfold State.setReg
  split <;> rfl

/-- The answer with other stack memory in its next state. -/
def withStackNext (m : Memory) : Result → Result
  | .next t => .next (t.withStack m)
  | .fault f => .fault f
  | .refused r => .refused r

theorem exec_ecall_withStack (code : Word) (s : State) (m : Memory) :
    exec (.ecall code) (s.withStack m) = withStackNext m (exec (.ecall code) s) := by
  by_cases h1 : code = 1#Config.xlen
  · subst h1
    rfl
  by_cases h5 : code = 5#Config.xlen
  · subst h5
    cases hinput : s.input with
    | nil => rw [exec_ecall_blocked hinput, exec_ecall_blocked (s := s.withStack m) hinput]; rfl
    | cons v rest =>
      rw [exec_ecall_read hinput, exec_ecall_read (s := s.withStack m) hinput]
      exact congrArg (fun u : State => Host.Outcome.next u.advance) (State.setReg_withStack { s with input := rest } m regA0 v)
  · rw [exec_ecall_other h1 h5, exec_ecall_other h1 h5]
    rfl

/-- Outside the memory family an instruction's answer does not depend on stack memory: it is the same but for the cells it was
given (20_memory.md R37). -/
theorem exec_withStack (hfamily : Family.ofInstr i ≠ .memory) (s : State) (m : Memory) :
    exec i (s.withStack m) = withStackNext m (exec i s) := by
  have hwrite (d : Specifier) (v : Word) :
      (.next ((s.withStack m).setReg d v).advance : Result) = withStackNext m (.next (s.setReg d v).advance) := by
    rw [State.setReg_withStack]
    rfl
  cases i with
  | nop => rfl
  | li dst imm => exact hwrite dst imm
  | add dst src1 src2 => exact hwrite dst (s.reg src1 + s.reg src2)
  | addi dst src imm => exact hwrite dst (s.reg src + imm)
  | ecall code => exact exec_ecall_withStack code s m
  | b | beq | bgt | ble | jal | ret =>
    rw [exec_branch rfl, exec_branch rfl]
    rfl
  | sw | lw => exact absurd rfl hfamily

/-- Settles O32: `exec_withStack` for the other families; and `sw` is the only one that writes a cell. -/
theorem stackIsReachedOnlyByTheMemoryFamily : Obligations.StackIsReachedOnlyByTheMemoryFamily := by
  refine ⟨fun i s m hfamily => ⟨fun t ht => ⟨?_, ?_⟩, fun f hf => ?_⟩, fun dst addrReg s t ht => ?_⟩
  · exact (exec_withStack hfamily s m).trans (congrArg (withStackNext m) ht)
  · refine (exec_next_effect ht).sameStack fun src areg hi => hfamily ?_
    rw [hi]
    rfl
  · exact (exec_withStack hfamily s m).trans (congrArg (withStackNext m) hf)
  · exact (exec_next_effect ht).sameStack nofun

end Sys2Proof.Machine
end

section
/-! PROOFS. Tokens and the resolver (30_encoding.md section 3): what a token names, when the resolver refuses, and that what it
emits is well formed. -/

namespace Sys2Proof

variable {lt : LabelTable} {op tok : Token} {args : List Token} {m : Mnemonic} {n : Nat}

/-! ### Register tokens (R62) -/

theorem regOfToken_spelling (r : RegName) : regOfToken r.spelling = r.specifier := by
  rw [regOfToken, r.ofToken?_spelling]

theorem regOfToken_of_ofToken? {r : RegName} (h : RegName.ofToken? tok = some r) : regOfToken tok = r.specifier := by
  rw [regOfToken, h]

theorem regOfToken_of_unknown (h : RegName.ofToken? tok = none) : regOfToken tok = absentSpecifier := by
  rw [regOfToken, h]

/-- A register stands in the list at its own number, so the specifier tells it (10_state.md R12). -/
theorem RegName.all_getElem?_specifier (r : RegName) : RegName.all[r.specifier.toNat]? = some r := by
  cases r <;> rfl

theorem RegName.specifier_injective : Function.Injective RegName.specifier := by
  intro r r' h
  have hr := r.all_getElem?_specifier
  rw [h, r'.all_getElem?_specifier] at hr
  exact (Option.some.inj hr).symm

/-- Settles O45: names and registers correspond, and a token that spells none of them is absent. -/
theorem registerTokensResolve : Obligations.RegisterTokensResolve := by
  refine ⟨regOfToken_spelling, fun r r' h => RegName.specifier_injective h, fun tok hnone => regOfToken_of_unknown ?_⟩
  exact Option.eq_none_iff_forall_ne_some.mpr fun r hr => hnone r (RegName.spelling_of_ofToken? hr)

/-! ### Refusal (R67) -/

theorem resolve_unknown (h : Mnemonic.ofToken? op = none) : resolve lt (op :: args) = .ok (makeWord 0x00 0 0 0 0) := by
  simp [resolve, h]

/-- A mnemonic with enough operands is resolved, and with fewer it is refused (R54, R67). -/
theorem resolve_mnemonic_ok_iff (h : Mnemonic.ofToken? op = some m) :
    (∃ w, resolve lt (op :: args) = .ok w) ↔ m.operandCount ≤ args.length := by
  match args with
  | [] | [_] | [_, _] | _ :: _ :: _ :: _ => cases m <;> simp [resolve, h, Mnemonic.operandCount]

/-- Settles O40: no token 0 is refused, no mnemonic is accepted, a mnemonic is accepted with enough operands. -/
theorem resolverRefusesExactlyMissingOperands : Obligations.ResolverRefusesExactlyMissingOperands := by
  intro lt t
  match t with
  | [] => simp [resolve]
  | op :: args =>
    cases hm : Mnemonic.ofToken? op with
    | none => simp [resolve_unknown hm, hm]
    | some m => simp [resolve_mnemonic_ok_iff hm, hm]

/-! ### What is emitted (R62, R64, R65) -/

theorem specifierOk_regOfToken (tok : Token) : specifierOk (regOfToken tok) = true := by
  cases h : RegName.ofToken? tok with
  | some r =>
    have := r.specifier_toNat_lt
    simp [regOfToken_of_ofToken? h, specifierOk, this]
  | none => simp [regOfToken_of_unknown h, specifierOk, absentSpecifier]

theorem codeOk_codeOfToken (tok : Token) : codeOk (codeOfToken tok) = true := by
  unfold codeOfToken
  split
  · rfl
  · split <;> rfl

/-- A number below the top is the signed value of its word. Stated at the width itself, since `omega` does not look into
`Config.xlen`. -/
theorem toInt_ofNat_64 {i : Nat} (hi : i < 2 ^ 63) : (BitVec.ofNat 64 i).toInt = i := by
  have hnat : (BitVec.ofNat 64 i).toNat = i := Nat.mod_eq_of_lt (by omega)
  have := BitVec.toInt_eq_toNat_of_lt (x := BitVec.ofNat 64 i) (by omega)
  omega

/-- A slot index of a program within the size bound is its own signed value (92_eei_decisions.md D22). -/
theorem targetOk_ofNat {i : Nat} (hi : i < n) (hn : n ≤ Config.maxSlots) :
    targetOk n (BitVec.ofNat Config.xlen i) = true := by
  have htop : Config.maxSlots < 2 ^ 63 := by decide
  have htoInt : (BitVec.ofNat Config.xlen i).toInt = i := toInt_ofNat_64 (by omega)
  simp [targetOk, htoInt, hi]

theorem targetOk_target (hlt : LabelTable.wellFormed n lt) (hpos : 0 < n) (hn : n ≤ Config.maxSlots) (tok : Token) :
    targetOk n (lt.target tok) = true := by
  unfold LabelTable.target
  split
  · rename_i i hfind
    exact targetOk_ofNat (hlt.1 _ (LabelTable.mem_of_find hfind)) hn
  · exact targetOk_ofNat hpos hn

/-- Settles O41: every arm of the resolver emits an `op` of the map and operands that are each well formed. -/
theorem resolverEmitsWellFormedInstructions : Obligations.ResolverEmitsWellFormedInstructions := by
  intro lt n t w hlt hpos hn h
  have htarget := targetOk_target hlt hpos hn
  unfold resolve at h
  split at h
  · cases h
  · split at h <;> cases h <;>
      simp [decodeWord, Instr.wellFormed, specifierOk_regOfToken, codeOk_codeOfToken, htarget]

end Sys2Proof
end

section
/-! PROOFS. The two levels agree (30_encoding.md R68): reading and writing by name is reading and writing by the resolved
specifier, and each token instruction is the instruction its word decodes to. -/

namespace Sys2Proof.Machine

variable {s : State}

theorem State.readName_eq (s : State) (tok : Token) : s.readName tok = s.reg (regOfToken tok) := by
  cases h : RegName.ofToken? tok with
  | some r => simp only [State.readName, h, regOfToken_of_ofToken? h]
  | none =>
    simp only [State.readName, h, regOfToken_of_unknown h]
    exact (s.reg_absent (by decide)).symm

theorem State.writeName_eq (s : State) (tok : Token) (v : Word) : s.writeName tok v = s.setReg (regOfToken tok) v := by
  cases h : RegName.ofToken? tok with
  | some r => simp only [State.writeName, h, regOfToken_of_ofToken? h]
  | none =>
    simp only [State.writeName, h, regOfToken_of_unknown h]
    exact (s.setReg_absent v (by decide)).symm

theorem State.jumpWhen_eq (s : State) (p : Prop) [Decidable p] (label : Token) :
    s.jumpWhen p label = s.branchIf (decide p) (s.labels.target label) := by
  unfold State.jumpWhen State.branchIf
  split <;> simp_all

theorem regOfToken_ra : regOfToken "ra".toList = regRa := regOfToken_spelling .ra
theorem regOfToken_a0 : regOfToken "a0".toList = regA0 := regOfToken_spelling .a0

/-- Where the resolver refuses, the token level has no meaning (R67): no token, or too few operands. -/
theorem execTokens_of_refused {t : TokenInstr} (h : ¬∃ w, resolve s.labels t = .ok w) : execTokens t s = none := by
  match t with
  | [] => rfl
  | op :: args =>
    cases hm : Mnemonic.ofToken? op with
    | none => exact absurd ⟨_, resolve_unknown hm⟩ h
    | some m =>
      rw [resolve_mnemonic_ok_iff hm] at h
      match args with
      | [] | [_] | [_, _] => cases m <;> simp_all [execTokens, Mnemonic.operandCount]
      | _ :: _ :: _ :: _ => cases m <;> simp_all [Mnemonic.operandCount]

/-- The resolved syscall code tells the tokens `1` and `5` from each other and from the rest (R65). -/
theorem exec_ecall_codeOfToken (code : Token) (s : State) :
    exec (.ecall (codeOfToken code)) s =
      if code = "1".toList then .next (s.emit (s.reg regA0)).advance
      else if code = "5".toList then readInteger s
      else .next s.advance := by
  unfold codeOfToken
  split
  · rfl
  · split <;> rfl

/-- Where the resolver accepts, the token level means what the word does, row by row of the opcode table. -/
theorem execTokens_of_resolved {t : TokenInstr} {w : IWord} (h : resolve s.labels t = .ok w) :
    execTokens t s = some (exec (decodeWord w) s) := by
  unfold resolve at h
  split at h
  · cases h
  · split at h <;> cases h <;> rename_i hm <;>
      simp only [execTokens, hm, decodeWord, fieldOp_makeWord, fieldP1_makeWord, fieldP2_makeWord, fieldP3_makeWord,
        fieldImm_makeWord, State.readName_eq, State.writeName_eq, State.jumpWhen_eq, regOfToken_ra, regOfToken_a0]
    case h_10 =>
      show _ = some (execSw _ _ s)
      unfold execSw
      cases s.memWrite _ _ <;> rfl
    case h_11 =>
      show _ = some (execLw _ _ s)
      unfold execLw
      cases s.memRead _ <;> rfl
    case h_12 code _ =>
      show _ = some (exec (.ecall (codeOfToken code)) s)
      rw [exec_ecall_codeOfToken, readInteger]
      split
      · rfl
      · split
        · cases s.takeInput <;> rfl
        · rfl
    all_goals rfl

/-- Settles O39: refused on both sides alike, and the same meaning where it is accepted. -/
theorem resolvedWordsActAsTheirTokens : Obligations.ResolvedWordsActAsTheirTokens := by
  intro t s
  cases h : resolve s.labels t with
  | ok w => exact execTokens_of_resolved h
  | error e => exact execTokens_of_refused (by simp [h])

end Sys2Proof.Machine
end

section
/-! PROOFS. Building the label table and loading a program (30_encoding.md sections 1 and 3). -/

namespace Sys2Proof

variable {lt : LabelTable} {tok : Token} {n i : Nat} {slots : List TokenInstr}

/-! ### Built label tables (R53, R64) -/

/-- Binding a label to the next slot gives a table for one slot more. -/
theorem LabelTable.wellFormed_bind (h : LabelTable.wellFormed n lt) (tok : Token) :
    LabelTable.wellFormed (n + 1) (lt.bind tok n) := by
  obtain ⟨hindex, hkeys⟩ := h
  refine ⟨fun e he => ?_, List.pairwise_cons.mpr ⟨fun e he => ?_, hkeys.filter _⟩⟩
  · rcases List.mem_cons.mp he with rfl | he
    · exact Nat.lt_succ_self n
    · exact Nat.lt_succ_of_lt (hindex e (List.mem_of_mem_filter he))
  · exact (bne_iff_ne.mp (List.mem_filter.mp he).2).symm

theorem labelsFrom_wellFormed (h : LabelTable.wellFormed n lt) (slots : List TokenInstr) :
    LabelTable.wellFormed (n + slots.length) (labelsFrom n lt slots) := by
  induction slots generalizing n lt with
  | nil => exact h
  | cons t ts ih =>
    rw [List.length_cons, Nat.add_comm ts.length, ← Nat.add_assoc]
    cases hlabel : declaredLabel? t with
    | some l =>
      simp only [labelsFrom, hlabel]
      exact ih (LabelTable.wellFormed_bind h l)
    | none =>
      simp only [labelsFrom, hlabel]
      exact ih ⟨fun e he => Nat.lt_succ_of_lt (h.1 e he), h.2⟩

theorem LabelTable.target_of_unbound (h : lt.find tok = none) : lt.target tok = 0#Config.xlen := by
  rw [LabelTable.target, h]

/-- A string that no slot declares is not bound. -/
theorem find_buildLabels_of_undeclared (h : ∀ i, ¬DeclaresAt slots tok i) : (buildLabels slots).find tok = none :=
  Option.eq_none_iff_forall_ne_some.mpr fun i hi => h i (find_buildLabels_iff.mp hi).1

/-- Settles O43: each slot binds at most its own index, and a string that is no label of any slot is not bound. -/
theorem builtLabelTablesAreWellFormed : Obligations.BuiltLabelTablesAreWellFormed := by
  intro slots
  constructor
  · have h := labelsFrom_wellFormed (n := 0) (lt := []) ⟨nofun, .nil⟩ slots
    rwa [Nat.zero_add] at h
  · intro tok hno
    refine LabelTable.target_of_unbound (find_buildLabels_of_undeclared fun i hi => ?_)
    obtain ⟨hsigil, args, hslot⟩ := declaresAt_iff.mp hi
    exact hno.elim (fun h => h hsigil) fun h => h i args hslot

/-! ### Loading (R50, R51, R61, R67) -/

theorem isComment_iff {l : TokenInstr} : isComment l = true ↔ ∃ cs args, l = ('/' :: cs) :: args := by
  match l with
  | [] => simp [isComment]
  | [] :: _ => simp [isComment]
  | (c :: cs) :: args => simp [isComment, Config.commentSigil]

/-- Resolving all slots answers words exactly if each slot resolves to the word at its index. -/
theorem resolveAll_ok_iff {words : List IWord} :
    resolveAll lt slots = .ok words ↔ List.Forall₂ (fun t w => resolve lt t = .ok w) slots words := by
  induction slots generalizing words with
  | nil => rw [resolveAll, List.forall₂_nil_left_iff, Except.ok.injEq, eq_comm]
  | cons t ts ih =>
    rw [resolveAll, List.forall₂_cons_left_iff]
    simp only [← ih]
    cases hw : resolve lt t with
    | error e => simp
    | ok w =>
      cases hws : resolveAll lt ts with
      | error e => simp
      | ok ws => simp [eq_comm]

/-- It answers some words exactly if every slot resolves. -/
theorem exists_resolveAll_ok_iff :
    (∃ words, resolveAll lt slots = .ok words) ↔ ∀ t ∈ slots, ∃ w, resolve lt t = .ok w := by
  induction slots with
  | nil => simp [resolveAll]
  | cons t ts ih =>
    rw [List.forall_mem_cons, ← ih, resolveAll]
    cases hw : resolve lt t with
    | error e => simp
    | ok w => cases hws : resolveAll lt ts <;> simp

theorem loadProgram_ok_iff {lines : List TokenInstr} {image : Image} :
    loadProgram lines = .ok image ↔
      image.labels = buildLabels (slotsOfLines lines) ∧
        resolveAll (buildLabels (slotsOfLines lines)) (slotsOfLines lines) = .ok image.words := by
  obtain ⟨words, labels⟩ := image
  unfold loadProgram
  cases h : resolveAll (buildLabels (slotsOfLines lines)) (slotsOfLines lines) with
  | error e => simp [h]
  | ok ws => simp [h, eq_comm, and_comm]

/-- Settles O44: the slots are a filter of the lines, and the image is what `resolveAll` answers under their table. -/
theorem loadedImageIsTheResolvedProgram : Obligations.LoadedImageIsTheResolvedProgram := by
  refine ⟨rfl, fun l ls => ⟨fun hcomment => ?_, fun hslot => ?_⟩, fun lines => ⟨?_, fun image hload => ?_⟩⟩
  · simp [slotsOfLines, isComment_iff.mpr hcomment]
  · have hno : isComment l = false := by
      rw [← Bool.not_eq_true, isComment_iff]
      exact fun ⟨cs, args, hl⟩ => hslot cs args hl
    simp [slotsOfLines, hno]
  · rw [← exists_resolveAll_ok_iff]
    simp only [loadProgram_ok_iff]
    exact ⟨fun ⟨image, _, h⟩ => ⟨_, h⟩, fun ⟨words, h⟩ => ⟨⟨words, _⟩, rfl, h⟩⟩
  · obtain ⟨hlabels, hwords⟩ := loadProgram_ok_iff.mp hload
    have hpairs := resolveAll_ok_iff.mp hwords
    refine ⟨hlabels, hpairs.length_eq.symm, fun i t ht => ?_⟩
    obtain ⟨hi, rfl⟩ := List.getElem?_eq_some_iff.mp ht
    have hi' : i < image.words.length := hpairs.length_eq ▸ hi
    rw [hlabels]
    exact ⟨_, List.getElem?_eq_getElem hi', hpairs.get hi hi'⟩

end Sys2Proof
end

section
/-! PROOFS. Integer literals (30_encoding.md R63): the model's reader accepts exactly the grammar, with the value the grammar
gives, and the decimal text of an integer is in the grammar (44_syscall.md R122). -/

namespace Sys2Proof.Machine

variable {c : Char} {cs ds tok : List Char} {acc n : Nat} {v : Int}

/-- A decimal digit. -/
def IsDecimalDigit (c : Char) : Prop := '0'.toNat ≤ c.toNat ∧ c.toNat ≤ '9'.toNat

theorem digitValue?_of_digit (h : IsDecimalDigit c) : digitValue? c = some (c.toNat - '0'.toNat) := if_pos h

theorem digitValue?_of_not_digit (h : ¬IsDecimalDigit c) : digitValue? c = none := if_neg h

/-- Reading digits after a number is the library's reading of digit characters, as far as all of them are digits. -/
theorem digitsFrom_eq_some_iff :
    digitsFrom acc ds = some n ↔ (∀ d ∈ ds, IsDecimalDigit d) ∧ n = Nat.ofDigitChars 10 ds acc := by
  induction ds generalizing acc with
  | nil => simp [digitsFrom, Nat.ofDigitChars_nil, eq_comm]
  | cons d ds ih =>
    by_cases hd : IsDecimalDigit d
    · simp [digitsFrom, digitValue?_of_digit hd, ih, hd, Nat.ofDigitChars_cons, Nat.mul_comm]
    · simp [digitsFrom, digitValue?_of_not_digit hd, hd]

theorem decimalValue_eq_ofDigitChars (ds : List Char) : decimalValue ds = Nat.ofDigitChars 10 ds 0 :=
  Nat.ofDigitChars_eq_foldl.symm

theorem digits?_eq_some_iff :
    digits? ds = some n ↔ ds ≠ [] ∧ (∀ d ∈ ds, IsDecimalDigit d) ∧ n = decimalValue ds := by
  rw [decimalValue_eq_ofDigitChars]
  cases ds with
  | nil => simp [digits?]
  | cons d ds => simp only [digits?, digitsFrom_eq_some_iff, ne_eq, reduceCtorEq, not_false_eq_true, true_and]

/-- The grammar in terms of the reader of unsigned digits: a literal is digits, alone or after one sign. -/
theorem isLiteral_iff_digits? :
    IsLiteral tok v ↔ ∃ ds n, digits? ds = some n ∧
      (tok = ds ∧ v = n ∨ tok = '+' :: ds ∧ v = n ∨ tok = '-' :: ds ∧ v = -(n : Int)) := by
  simp only [digits?_eq_some_iff]
  constructor
  · rintro ⟨ds, hne, hdigits, h⟩
    exact ⟨ds, _, ⟨hne, hdigits, rfl⟩, h⟩
  · rintro ⟨ds, _, ⟨hne, hdigits, rfl⟩, h⟩
    exact ⟨ds, hne, hdigits, h⟩

/-- A sign is no digit. -/
theorem digits?_cons_of_not_digit (h : ¬IsDecimalDigit c) : digits? (c :: cs) = none := by
  simp [digits?, digitsFrom, digitValue?_of_not_digit h]

/-- The reader of literals accepts the grammar, with its values, and nothing else. -/
theorem literalValue?_eq_some_iff : literalValue? tok = some v ↔ IsLiteral tok v := by
  rw [isLiteral_iff_digits?]
  have hminus (cs : List Char) : digits? ('-' :: cs) = none := digits?_cons_of_not_digit (by simp [IsDecimalDigit])
  have hplus (cs : List Char) : digits? ('+' :: cs) = none := digits?_cons_of_not_digit (by simp [IsDecimalDigit])
  constructor
  · intro h
    match tok with
    | [] => cases h
    | c :: cs =>
      rw [literalValue?] at h
      split at h
      · subst c
        obtain ⟨n, hn, rfl⟩ := Option.map_eq_some_iff.mp h
        exact ⟨cs, n, hn, .inr (.inr ⟨rfl, rfl⟩)⟩
      · split at h
        · subst c
          obtain ⟨n, hn, rfl⟩ := Option.map_eq_some_iff.mp h
          exact ⟨cs, n, hn, .inr (.inl ⟨rfl, rfl⟩)⟩
        · obtain ⟨n, hn, rfl⟩ := Option.map_eq_some_iff.mp h
          exact ⟨c :: cs, n, hn, .inl ⟨rfl, rfl⟩⟩
  · rintro ⟨ds, n, hn, ⟨rfl, rfl⟩ | ⟨rfl, rfl⟩ | ⟨rfl, rfl⟩⟩
    · cases tok with
      | nil => cases hn
      | cons c cs =>
        have hcm : c ≠ '-' := by rintro rfl; rw [hminus] at hn; cases hn
        have hcp : c ≠ '+' := by rintro rfl; rw [hplus] at hn; cases hn
        simp [literalValue?, hcm, hcp, hn]
    · simp [literalValue?, hn]
    · simp [literalValue?, hn]

theorem parseInt_of_literal (h : IsLiteral tok v) :
    parseInt tok = if -(2 ^ 63) ≤ v ∧ v ≤ 2 ^ 63 - 1 then BitVec.ofInt 64 v else 0 := by
  rw [parseInt, literalValue?_eq_some_iff.mpr h]
  rfl

theorem parseInt_of_not_literal (h : ∀ v, ¬IsLiteral tok v) : parseInt tok = 0#Config.xlen := by
  have hnone : literalValue? tok = none :=
    Option.eq_none_iff_forall_ne_some.mpr fun v hv => h v (literalValue?_eq_some_iff.mp hv)
  rw [parseInt, hnone]

/-- Settles O47: outside the grammar nothing is read, and what is read must be in range. -/
theorem parseIntOfMalformedTokensIsZero : Obligations.ParseIntOfMalformedTokensIsZero := by
  refine fun tok => ⟨parseInt_of_not_literal, fun v hv hout => ?_⟩
  rw [parseInt_of_literal hv]
  exact if_neg (by omega)

/-- Settles O51: in range, the word of a value has that value. -/
theorem parseIntOfLiteralsIsTheirValue : Obligations.ParseIntOfLiteralsIsTheirValue := by
  intro tok v hv hlow hhigh
  rw [parseInt_of_literal hv, if_pos ⟨hlow, hhigh⟩]
  have hlt : v < 2 ^ (64 - 1) := Int.lt_of_le_sub_one hhigh
  exact BitVec.toInt_ofInt_eq_self (by decide) hlow hlt

/-! ### The decimal text of an integer -/

theorem isDecimalDigit_of_mem_toDigits (h : c ∈ Nat.toDigits 10 n) : IsDecimalDigit c :=
  Char.isDigit_iff_toNat.mp (Nat.isDigit_of_mem_toDigits (by decide) (by decide) h)

theorem digits?_toDigits (n : Nat) : digits? (Nat.toDigits 10 n) = some n := by
  rw [digits?_eq_some_iff, decimalValue_eq_ofDigitChars]
  exact ⟨Nat.toDigits_ne_nil, fun _ => isDecimalDigit_of_mem_toDigits, Nat.ofDigitChars_ten_toDigits.symm⟩

theorem renderInt_of_nonneg {v : Word} (h : 0 ≤ v.toInt) : renderInt v = Nat.toDigits 10 v.toInt.natAbs :=
  if_neg (Int.not_lt.mpr h)

theorem renderInt_of_neg {v : Word} (h : v.toInt < 0) : renderInt v = '-' :: Nat.toDigits 10 v.toInt.natAbs :=
  if_pos h

theorem isLiteral_renderInt (v : Word) : IsLiteral (renderInt v) v.toInt := by
  refine isLiteral_iff_digits?.mpr ⟨_, _, digits?_toDigits v.toInt.natAbs, ?_⟩
  rcases Int.lt_or_le v.toInt 0 with hneg | hnonneg
  · exact .inr (.inr ⟨renderInt_of_neg hneg, by omega⟩)
  · exact .inl ⟨renderInt_of_nonneg hnonneg, by omega⟩

theorem isLiteral_plus_renderInt {v : Word} (h : 0 ≤ v.toInt) : IsLiteral ('+' :: renderInt v) v.toInt :=
  isLiteral_iff_digits?.mpr
    ⟨_, _, digits?_toDigits v.toInt.natAbs, .inr (.inl ⟨congrArg _ (renderInt_of_nonneg h), by omega⟩)⟩

/-- A literal of a word's signed value is read as the word. -/
theorem parseInt_eq_of_isLiteral {v : Word} (h : IsLiteral tok v.toInt) : parseInt tok = v := by
  obtain ⟨hlow, hhigh⟩ := toInt_bounds v
  exact BitVec.eq_of_toInt_eq (parseIntOfLiteralsIsTheirValue tok v.toInt h hlow hhigh)

/-- Settles O46: the rendered text is a literal of the value. -/
theorem parseIntReadsDecimalTextBack : Obligations.ParseIntReadsDecimalTextBack :=
  fun v => ⟨parseInt_eq_of_isLiteral (isLiteral_renderInt v),
    fun h => parseInt_eq_of_isLiteral (isLiteral_plus_renderInt h)⟩

end Sys2Proof.Machine
end

section
/-! PROOFS. Straight-line programs replay their register effects (40_execution_loop.md R89 (a), 90_conflicts.md C8). -/

namespace Sys2Proof.Machine

variable {s t u : State} {i : Instr}

/-! ### The register file as a list -/

/-- A register reads the replayed file at its index. -/
theorem State.reg_eq_get (s : State) (r : Specifier) : s.reg r = RegView.get s.regs.toList r := by
  unfold State.reg RegView.get
  by_cases h : r.toNat < 29 <;> simp [h, List.getD_eq_getElem?_getD]

/-- A register write is a write of the replayed file, also where it is discarded. -/
theorem State.setReg_regs_toList (s : State) (d : Specifier) (v : Word) :
    (s.setReg d v).regs.toList = s.regs.toList.set d.toNat v := by
  by_cases h : d.toNat < 29
  · rw [State.setReg, dif_pos h]
    exact Vector.toList_set h
  · rw [s.setReg_absent v (Nat.not_lt.mp h), List.set_eq_of_length_le (by simpa using h)]

/-- A straight-line instruction that takes no fault has its replayed effect on the registers. -/
theorem replayOne_of_exec (hi : straightLine i = true) (h : exec i s = .next t) (hlatch : t.latch = none) :
    t.regs.toList = replayOne s.regs.toList i := by
  cases i with
  | nop => cases h; rfl
  | li dst imm => cases h; exact s.setReg_regs_toList dst imm
  | add dst src1 src2 =>
    cases h
    rw [replayOne, ← s.reg_eq_get, ← s.reg_eq_get]
    exact s.setReg_regs_toList dst (s.reg src1 + s.reg src2)
  | addi dst src imm =>
    cases h
    rw [replayOne, ← s.reg_eq_get]
    exact s.setReg_regs_toList dst (s.reg src + imm)
  | sw src areg =>
    cases hb : inBounds (s.reg areg) with
    | true => rw [exec_sw_inBounds src hb] at h; cases h; rfl
    | false => rw [exec_sw_outOfBounds src hb] at h; cases h; cases hlatch
  | ecall code =>
    have h5 : code ≠ 5#Config.xlen := of_decide_eq_true hi
    by_cases h1 : code = 1#Config.xlen
    · subst h1
      rw [exec_ecall_print] at h
      cases h
      rfl
    · rw [exec_ecall_other h1 h5] at h
      cases h
      rfl
  | b | beq | bgt | ble | jal | ret | lw => cases hi

/-- It transfers control nowhere. -/
theorem takenTarget?_of_straightLine (hi : straightLine i = true) (s : State) : takenTarget? i s = none := by
  cases i with
  | nop | li | add | addi | sw | ecall => rfl
  | b | beq | bgt | ble | jal | ret | lw => cases hi

/-! ### The pc within a program of bounded size (92_eei_decisions.md D22) -/

/-- From a slot of the program the next pc is one more as a signed value. -/
theorem State.toInt_pc_add_one (hsize : s.program.length ≤ Config.maxSlots) (hin : s.inProgram = true) :
    (s.pc + 1#Config.xlen).toInt = s.pc.toInt + 1 := by
  obtain ⟨-, hhigh⟩ := s.inProgram_iff.mp hin
  have htop : Config.maxSlots = 2 ^ 63 - 1 := rfl
  exact toInt_add_one (by omega)

theorem State.drop_pc_of_halted (hnonneg : 0 ≤ s.pc.toInt) (hout : s.inProgram = false) : s.program.drop s.pc.toNat = [] := by
  have := s.inProgram_false_iff.mp hout
  have := toNat_of_toInt_nonneg hnonneg
  exact List.drop_eq_nil_of_le (by omega)

theorem State.drop_pc_of_fetch {w : IWord} (h : s.fetch = some w) :
    s.program.drop s.pc.toNat = w :: s.program.drop (s.pc.toNat + 1) := by
  obtain ⟨hlt, rfl⟩ := List.getElem?_eq_some_iff.mp (s.fetch_eq_some_iff.mp h).2
  exact List.drop_eq_getElem_cons hlt

/-- What one step of a straight-line run does, if no fault ends the run there: the slot's effect is replayed, and the run is at
the next slot of the same program. -/
theorem step_straightLine {w : IWord} (hsize : s.program.length ≤ Config.maxSlots) (hfetch : s.fetch = some w)
    (hi : straightLine (decodeWord w) = true) (hstep : step s = .next u) (hlatch : u.latch = none) :
    u.regs.toList = replayOne s.regs.toList (decodeWord w) ∧ u.pc.toInt = s.pc.toInt + 1 ∧ u.program = s.program := by
  obtain ⟨hlatchS, -⟩ := step_next_cases hstep
  obtain ⟨hprogram, -⟩ := step_program_labels hstep
  rw [step_of_fetch hlatchS hfetch] at hstep
  have hpc := exec_pc hstep hlatch
  rw [takenTarget?_of_straightLine hi, Option.getD_none] at hpc
  refine ⟨replayOne_of_exec hi hstep hlatch, ?_, hprogram⟩
  rw [hpc]
  exact s.toInt_pc_add_one hsize (s.fetch_eq_some_iff.mp hfetch).1

/-- Settles O48, by induction on the fuel: a halted run is past its last slot, and a step replays the slot it runs. -/
theorem straightLineRunsReplayTheirRegisterEffects : Obligations.StraightLineRunsReplayTheirRegisterEffects := by
  intro fuel s t hsize hnonneg hstraight hrun
  induction fuel using Nat.strong_induction_on generalizing s with
  | _ fuel ih =>
    obtain ⟨hlatch, ⟨hout, rfl⟩ | ⟨hin, k, u, rfl, hstep, hrun⟩⟩ := runFor_halted_cases hrun
    · rw [State.drop_pc_of_halted hnonneg hout]
      have := t.inProgram_false_iff.mp hout
      exact ⟨rfl, fun hle => by omega⟩
    · obtain ⟨w, hfetch⟩ := State.exists_fetch_of_inProgram hin
      rw [State.drop_pc_of_fetch hfetch] at hstraight ⊢
      obtain ⟨hi, hrest⟩ := List.forall_mem_cons.mp hstraight
      obtain ⟨hregs, hpc, hprogram⟩ := step_straightLine hsize hfetch hi hstep (runFor_halted_cases hrun).1
      have hnonnegU : 0 ≤ u.pc.toInt := by omega
      have hnext : u.pc.toNat = s.pc.toNat + 1 := by
        have := toNat_of_toInt_nonneg hnonneg
        have := toNat_of_toInt_nonneg hnonnegU
        omega
      rw [← hnext, ← hprogram] at hrest ⊢
      obtain ⟨hreplay, hend⟩ := ih k (Nat.lt_succ_self k) u (hprogram ▸ hsize) hnonnegU hrest hrun
      rw [hregs] at hreplay
      refine ⟨hreplay, fun _ => hend ?_⟩
      have := (s.inProgram_iff.mp hin).2
      rw [hprogram]
      omega

end Sys2Proof.Machine
end

section
/-! PROOFS. Forward runs end, and forward texts run forward (40_execution_loop.md R89 (b), 90_conflicts.md C8). -/

namespace Sys2Proof.Machine

variable {s t u : State} {i : Instr}

/-! ### A forward run ends (R89 (b)) -/

/-- How the obligation lets a run of `fuel` steps end: normally, not inside the program, or by an abort. -/
def EndsWithin (fuel : Nat) (s : State) : Prop :=
  ∃ t, runFor fuel s = .halted t ∧ (0 ≤ s.pc.toInt → (s.program.length : Int) ≤ t.pc.toInt) ∨
    ∃ cause, runFor fuel s = .faulted t cause

theorem endsWithin_of_latched {cause : FaultCause} (h : s.latch = some cause) (fuel : Nat) : EndsWithin fuel s :=
  ⟨s, .inr ⟨cause, runFor_latched h⟩⟩

theorem endsWithin_of_outside (hlatch : s.latch = none) (hout : s.inProgram = false) (fuel : Nat) : EndsWithin fuel s := by
  refine ⟨s, .inl ⟨runFor_halted hlatch hout, fun hnonneg => ?_⟩⟩
  have := s.inProgram_false_iff.mp hout
  omega

/-- A step within the program of a forward run takes a fault or moves the pc forward. -/
theorem pc_lt_of_forward_step (hsize : s.program.length ≤ Config.maxSlots) (hforward : s.RunGoesForward)
    (hstep : step s = .next t) (hlatch : t.latch = none) : s.pc.toInt < t.pc.toInt := by
  obtain ⟨hlatchS, w, hfetch, hexec⟩ := step_next_cases hstep
  rw [exec_pc hexec hlatch]
  cases htaken : takenTarget? (decodeWord w) s with
  | some target => exact (hforward.here hlatchS).1 _ _ (State.current_of_fetch hfetch) htaken
  | none =>
    rw [Option.getD_none, s.toInt_pc_add_one hsize (s.fetch_eq_some_iff.mp hfetch).1]
    exact Int.lt_succ _

/-- A run ends as the run from its next state does, which has one step less to go. -/
theorem EndsWithin.of_step {fuel : Nat} (hstep : step s = .next u) (hpc : 0 ≤ s.pc.toInt → 0 ≤ u.pc.toInt)
    (h : EndsWithin fuel u) : EndsWithin (fuel + 1) s := by
  obtain ⟨t, hend⟩ := h
  rw [← runFor_succ hstep, (step_program_labels hstep).1] at hend
  exact ⟨t, hend.imp_left fun ⟨hrun, hpast⟩ => ⟨hrun, fun hnonneg => hpast (hpc hnonneg)⟩⟩

/-- Fuel for every slot from the pc on is enough: each step of a forward run leaves one slot less. -/
theorem endsWithin_of_forward {fuel : Nat} (hsize : s.program.length ≤ Config.maxSlots) (hforward : s.RunGoesForward)
    (hfuel : 0 ≤ s.pc.toInt → (s.program.length : Int) ≤ s.pc.toInt + fuel) : EndsWithin fuel s := by
  induction fuel using Nat.strong_induction_on generalizing s with
  | _ fuel ih =>
    cases hlatch : s.latch with
    | some cause => exact endsWithin_of_latched hlatch fuel
    | none =>
    cases hin : s.inProgram with
    | false => exact endsWithin_of_outside hlatch hin fuel
    | true =>
      obtain ⟨hnonneg, hhigh⟩ := s.inProgram_iff.mp hin
      have hfuel := hfuel hnonneg
      obtain ⟨k, rfl⟩ : ∃ k, fuel = k + 1 := Nat.exists_eq_add_one.mpr (by omega)
      obtain ⟨u, hstep⟩ := step_next_of_not_blocked hlatch hin (hforward.here hlatch).2
      cases hlatchU : u.latch with
      | some cause => exact ⟨u, .inr ⟨cause, (runFor_succ hstep).trans (runFor_latched hlatchU)⟩⟩
      | none =>
        have hpc := pc_lt_of_forward_step hsize hforward hstep hlatchU
        have hprogram := (step_program_labels hstep).1
        refine .of_step hstep (fun _ => by omega)
          (ih k (Nat.lt_succ_self k) (hprogram ▸ hsize) (hforward.next hstep) fun _ => ?_)
        rw [hprogram]
        omega

/-- Settles O49: the program has as many slots from the pc on as it has slots, at most. -/
theorem forwardProgramsEnd : Obligations.ForwardProgramsEnd :=
  fun s hsize hforward => endsWithin_of_forward hsize hforward fun hnonneg => by omega

/-! ### A forward text runs forward -/

/-- An instruction whose text goes forward transfers control only to a later slot, and is not the one that blocks. -/
theorem target_of_goesForward {slot : Nat} {target : Word} (h : goesForward slot i = true)
    (htaken : takenTarget? i s = some target) : (slot : Int) < target.toInt := by
  cases i with
  | b | jal =>
    cases htaken
    exact of_decide_eq_true h
  | beq | bgt | ble =>
    obtain ⟨-, ⟨⟩⟩ := Option.ite_none_right_eq_some.mp htaken
    exact of_decide_eq_true h
  | ret => cases h
  | nop | li | add | addi | sw | lw | ecall => cases htaken

theorem goesForward_ne_ecall_five {slot : Nat} (h : goesForward slot i = true) : i ≠ .ecall 5#Config.xlen := by
  rintro rfl
  cases h

/-- The text of a program goes forward. -/
def State.TextGoesForward (s : State) : Prop :=
  ∀ (i : Nat) (w : IWord), s.program[i]? = some w → goesForward i (decodeWord w) = true

theorem State.TextGoesForward.current (h : s.TextGoesForward) (hcurrent : s.current = some i) :
    goesForward s.pc.toNat i = true ∧ 0 ≤ s.pc.toInt := by
  obtain ⟨w, hfetch, rfl⟩ := Option.map_eq_some_iff.mp hcurrent
  obtain ⟨hin, hslot⟩ := s.fetch_eq_some_iff.mp hfetch
  exact ⟨h _ w hslot, (s.inProgram_iff.mp hin).1⟩

/-- Settles O50: a run keeps the program's text, and the current instruction is the one in the slot the pc names. -/
theorem forwardTextsRunForward : Obligations.ForwardTextsRunForward := by
  intro s htext k t hrun _
  have htext : t.TextGoesForward := by
    have hprogram := (run_program_labels hrun).1
    intro i w hw
    exact htext i w (hprogram ▸ hw)
  refine ⟨fun i target hcurrent htaken => ?_, fun ⟨_, hcurrent, _⟩ => ?_⟩
  · obtain ⟨hforward, hnonneg⟩ := htext.current hcurrent
    rw [← toNat_of_toInt_nonneg hnonneg]
    exact target_of_goesForward hforward htaken
  · exact goesForward_ne_ecall_five (htext.current hcurrent).1 rfl

end Sys2Proof.Machine
end
